-- ==== Sys2Proof/Word.lean ====
section
/-! DEFINITION. The machine's data widths: bytes, register numbers, the 3-bit flags register. -/

namespace Sys2Proof

/-- Every register, memory cell, operand byte and the program counter: unsigned, 8 bits (rules R6, R21, R26, R51). -/
abbrev Byte := BitVec 8

/-- A legal register number, 0 to 7 (rule R21). -/
abbrev Reg := Fin 8

/-- The flags register: bit 0 equal, bit 1 greater-than, bit 2 less-than (rule R29; its width is decision D7, log 4). -/
abbrev Flags := BitVec 3

end Sys2Proof
end

