-- ==== Sys2Proof/Syntax.lean ====
section
/-! DEFINITION. The instructions: one constructor per row of the opcode table (rule R85, 30_encoding.md). -/

namespace Sys2Proof

/-- An instruction whose opcode has been recognised, with its operand bytes AS FETCHED (rules R82, R94). A register
operand is a whole byte (rule R83): that it is at most 7 is checked after recognition, when the instruction executes
(rules R88, R115; log 8), so a term of this type can be ill-formed. -/
inductive Instr where
  /-- `LDI r, i` (0x82, format `OP_R_I`, rule R190). -/
  | ldi (r i : Byte)
  /-- `PRN r` (0x47, format `OP_R`, rule R191). -/
  | prn (r : Byte)
  /-- `ADD a, b` (0xA0, format `OP_R_R`, rule R141). -/
  | add (a b : Byte)
  /-- `SUB a, b` (0xA1, format `OP_R_R`, rule R142). -/
  | sub (a b : Byte)
  /-- `MUL a, b` (0xA2, format `OP_R_R`, rule R143). -/
  | mul (a b : Byte)
  /-- `DIV a, b` (0xA3, format `OP_R_R`, rule R144). -/
  | div (a b : Byte)
  /-- `CMP a, b` (0xA7, format `OP_R_R`, rule R146). -/
  | cmp (a b : Byte)
  /-- `OR a, b` (0xAA, format `OP_R_R`, rule R145). -/
  | or (a b : Byte)
  /-- `PUSH r` (0x45, format `OP_R`, rule R161). -/
  | push (r : Byte)
  /-- `POP r` (0x46, format `OP_R`, rule R162). -/
  | pop (r : Byte)
  /-- `JMP r` (0x54, format `OP_R`, rule R171). -/
  | jmp (r : Byte)
  /-- `JEQ r` (0x55, format `OP_R`, rule R172). -/
  | jeq (r : Byte)
  /-- `JNE r` (0x56, format `OP_R`, rule R173). -/
  | jne (r : Byte)
  /-- `CALL r` (0x50, format `OP_R`, rule R174). -/
  | call (r : Byte)
  /-- `RET` (0x11, format `OP`, rule R175). -/
  | ret
  /-- `HLT` (0x01, format `OP`, rule R192). -/
  | hlt
deriving DecidableEq, Repr

/-- The operand bytes in register positions (rule R88): `opa` of every `OP_R`, `OP_R_R` and `OP_R_I` instruction and
`opb` of every `OP_R_R` instruction. The immediate of LDI is none. -/
def Instr.registerOperands : Instr → List Byte
  | .ldi r _ => [r]
  | .prn r => [r]
  | .add a b => [a, b]
  | .sub a b => [a, b]
  | .mul a b => [a, b]
  | .div a b => [a, b]
  | .cmp a b => [a, b]
  | .or a b => [a, b]
  | .push r => [r]
  | .pop r => [r]
  | .jmp r => [r]
  | .jeq r => [r]
  | .jne r => [r]
  | .call r => [r]
  | .ret => []
  | .hlt => []

end Sys2Proof
end

