-- ==== Sys2Proof/WellFormed.lean ====
section
/-! DEFINITION. Well-formed instructions: the operand bytes the encoding admits (rules R83, R88, R252). -/

namespace Sys2Proof

/-- Rule R83(a): a register operand byte is `00000rrr`, that is, at most 7. -/
def isRegisterByte (b : Byte) : Bool := decide (b.toNat < 8)

/-- Every register operand byte of the instruction is at most 7 (rule R88). An ill-formed instruction is not without
meaning: executing it raises `InvalidRegister` (rule R115). -/
def Instr.wellFormed (i : Instr) : Bool := i.registerOperands.all isRegisterByte

end Sys2Proof
end

