-- ==== Sys2Proof/Decode.lean ====
section
/-! DEFINITION. The instruction decoder and the encoder (30_encoding.md). -/

namespace Sys2Proof

/-- Why an opcode byte is no instruction (rule R87). -/
inductive DecodeError where
  /-- Bit 5 clear and none of the ten non-ALU opcodes (rules R87, R201). -/
  | unknownInstruction
  /-- Bit 5 set and none of the six ALU opcodes (rules R87, R147, R202). -/
  | unsupportedOperation
deriving DecidableEq, Repr

/-- Rule R81: `operand_count` = `ir[7:6]`. -/
def operandCount (ir : Byte) : Nat := (ir.extractLsb' 6 2).toNat

/-- Rule R81: `is_alu_op` = `ir[5]`. -/
def isAluOp (ir : Byte) : Bool := ir.getLsbD 5

/-- Rule R81: `sets_pc` = `ir[4]`. -/
def setsPc (ir : Byte) : Bool := ir.getLsbD 4

/-- Rule R81: `id` = `ir[3:0]`. It selects no operation on its own (rule R84). -/
def idField (ir : Byte) : Nat := (ir.extractLsb' 0 4).toNat

/-- The ALU's recognition of its six opcodes (rules R114, R147). -/
def decodeAlu (ir opa opb : Byte) : Except DecodeError Instr :=
  match ir with
  | 0xA0#8 => .ok (.add opa opb)
  | 0xA1#8 => .ok (.sub opa opb)
  | 0xA2#8 => .ok (.mul opa opb)
  | 0xA3#8 => .ok (.div opa opb)
  | 0xA7#8 => .ok (.cmp opa opb)
  | 0xAA#8 => .ok (.or opa opb)
  | _ => .error .unsupportedOperation

/-- The top-level dispatcher's recognition of the ten other opcodes (rule R114). Bytes that are not part of the
instruction are dropped (rule R89). -/
def decodeNonAlu (ir opa opb : Byte) : Except DecodeError Instr :=
  match ir with
  | 0x82#8 => .ok (.ldi opa opb)
  | 0x47#8 => .ok (.prn opa)
  | 0x45#8 => .ok (.push opa)
  | 0x46#8 => .ok (.pop opa)
  | 0x54#8 => .ok (.jmp opa)
  | 0x55#8 => .ok (.jeq opa)
  | 0x56#8 => .ok (.jne opa)
  | 0x50#8 => .ok (.call opa)
  | 0x11#8 => .ok .ret
  | 0x01#8 => .ok .hlt
  | _ => .error .unknownInstruction

/-- Recognise the opcode of a fetched window of three bytes (step 3 of rule R111; rules R84, R114): bit 5 first, then
the whole byte. Defined on all bytes. -/
def decode (ir opa opb : Byte) : Except DecodeError Instr :=
  if isAluOp ir then decodeAlu ir opa opb else decodeNonAlu ir opa opb

/-- The opcode byte of an instruction (rule R85). -/
def opcodeByte : Instr → Byte
  | .ldi _ _ => 0b10000010
  | .prn _ => 0b01000111
  | .add _ _ => 0b10100000
  | .sub _ _ => 0b10100001
  | .mul _ _ => 0b10100010
  | .div _ _ => 0b10100011
  | .cmp _ _ => 0b10100111
  | .or _ _ => 0b10101010
  | .push _ => 0b01000101
  | .pop _ => 0b01000110
  | .jmp _ => 0b01010100
  | .jeq _ => 0b01010101
  | .jne _ => 0b01010110
  | .call _ => 0b01010000
  | .ret => 0b00010001
  | .hlt => 0b00000001

/-- The operand bytes that belong to the instruction, in address order (rule R82). -/
def operandBytes : Instr → List Byte
  | .ldi r i => [r, i]
  | .prn r => [r]
  | .add a b => [a, b]
  | .sub a b => [a, b]
  | .mul a b => [a, b]
  | .div a b => [a, b]
  | .cmp a b => [a, b]
  | .or a b => [a, b]
  | .push r => [r]
  | .pop r => [r]
  | .jmp r => [r]
  | .jeq r => [r]
  | .jne r => [r]
  | .call r => [r]
  | .ret => []
  | .hlt => []

/-- The bytes of an instruction, opcode first, at increasing addresses (rules R55, R80, R82). -/
def encode (i : Instr) : List Byte := opcodeByte i :: operandBytes i

/-- Decode the instruction that starts a list of bytes; a byte the list does not have reads as 0. -/
def decodeBytes (bytes : List Byte) : Except DecodeError Instr :=
  decode (bytes.getD 0 0) (bytes.getD 1 0) (bytes.getD 2 0)

/-- Byte `k` of a word whose bits are numbered as the opcode table numbers them: bit 0 is the least significant bit
of the first byte. -/
def tableByte (w k : Nat) : Byte := BitVec.ofNat 8 (w / 256 ^ k)

/-- The three bytes that an instruction of `nbits` bits with bits `w` lays out in memory; bits above `nbits` are 0. -/
def tableBytes (nbits w : Nat) : List Byte :=
  let v := w % 2 ^ nbits
  [tableByte v 0, tableByte v 1, tableByte v 2]

/-- What the decoder reads from an instruction given as a number, its bits numbered as spec/opcode_table.json numbers
them. -/
def decodeTableWord (nbits w : Nat) : Option Instr :=
  match decodeBytes (tableBytes nbits w) with
  | .ok i => some i
  | .error _ => none

end Sys2Proof
end

