-- ==== Sys2Proof/Config.lean ====
section
/-! DEFINITION. The implementation parameters of rule R4 (00_scope.md). -/

namespace Sys2Proof

/-- The one parameter the spec leaves open: `FLAGS_STICKY` of rule R4 (decision D6). True: CMP ORs its result into
the flags. False: CMP replaces them. DESIGN CHOICE (log 1): held in `State`, constant under every step, so that every claim
about all states is a claim about both values. -/
structure Config where
  flagsSticky : Bool
deriving DecidableEq, Repr

/-- Rule R4: the default of `FLAGS_STICKY` is false. -/
def Config.default : Config := { flagsSticky := false }

/-- `MEM_SIZE` of rule R4: cells at addresses 0 to 255. -/
def memSize : Nat := 256

/-- `SP_INDEX` of rule R4: the register used as the stack pointer. -/
def spIndex : Reg := 7

/-- `SP_RESET` of rule R4. -/
def spReset : Byte := 0xF4

/-- `PC_RESET` of rule R4. -/
def pcReset : Byte := 0

/-- `FL_RESET` of rule R4 (R31; decision D7, log 4). -/
def flReset : Flags := 0

/-- `GPR_RESET` of rule R4. DESIGN CHOICE of the spec (decision D8, log 2): the source gives none. -/
def gprReset : Byte := 0

/-- `MEM_RESET` of rule R4, and so what an address that memory does not list reads as. DESIGN CHOICE of the spec
(decision D9, log 3): the source gives none. -/
def memReset : Byte := 0

/-- `LOAD_BASE` of rule R4: the address of the first byte of the program image. -/
def loadBase : Nat := 0

end Sys2Proof
end

