-- ==== Sys2Proof/Machine/State.lean ====
section
/-! DEFINITION. The architectural state (rule R20, 10_state.md), the stop reasons, and the state after reset (rule R37). -/

namespace Sys2Proof.Machine

/-- The two states of the execution loop (rule R32). `halted` is terminal. -/
inductive RunState where
  | running
  | halted
deriving DecidableEq, Repr

/-- The causes the fault latch can hold (rule R200). The latch's value `NONE` is `Option.none`. -/
inductive FaultCause where
  /-- Undefined opcode byte with bit 5 clear (rule R201). -/
  | unknownInstruction
  /-- Undefined opcode byte with bit 5 set (rule R202). -/
  | unsupportedOperation
  /-- Register operand byte above 7 (rule R204). -/
  | invalidRegister
  /-- DIV by a register that holds 0 (rule R203). -/
  | divideByZero
deriving DecidableEq, Repr

/-- Why a step could STOP WITHOUT A NEXT STATE. There is no such reason on this machine, so the type has no
constructor: rule R206 describes what every fault of the spec does to the state, so a fault is a next state (log 7), and
every state has exactly one next state (rule R119; part 1 of 93_implementation_defined.md). -/
inductive Fault where
deriving DecidableEq, Repr

/-- Why a step could be refused. -/
inductive Refusal where
  /-- Raised only by an arm of `exec` that has no meaning yet; no arm is such a one. Safe: the model says nothing. -/
  | notModelled (mnemonic : String)
deriving DecidableEq, Repr

/-- Memory (rules R50, R51): the cells that differ from `memReset`, addresses strictly rising and below 256
(`Memory.wf` in Machine/Ops.lean). -/
abbrev Memory := List Host.Cell

/-- The complete architectural state (rule R20) and the configuration parameter (rule R4). -/
structure State where
  /-- `x[0]` to `x[7]` (rule R21); `x[7]` is the stack pointer (rule R22). -/
  regs : Vector Byte 8
  /-- The program counter (rule R26). -/
  pc : Byte
  /-- The flags `FL` (rule R29). -/
  fl : Flags
  /-- The state of the execution loop (rule R32). -/
  run : RunState
  /-- The fault-cause latch (rule R33). -/
  fault : Option FaultCause
  /-- What PRN has emitted since reset, oldest first (rule R34). -/
  out : List Byte
  /-- The 256 memory cells (rule R51). -/
  mem : Memory
  /-- Not state of the spec: the value of `FLAGS_STICKY`, which no step changes (rule R4; log 1). -/
  config : Config
deriving DecidableEq, Repr

/-- What a step or an instruction answers. -/
abbrev Result := Host.Outcome State Fault Refusal

/-- The machine right after a reset, for a given value of the configuration parameter (rules R37, R240). -/
def State.resetWith (c : Config) : State :=
  { regs := #v[gprReset, gprReset, gprReset, gprReset, gprReset, gprReset, gprReset, spReset]
    pc := pcReset
    fl := flReset
    run := .running
    fault := none
    out := []
    mem := []
    config := c }

/-- The machine right after reset, with the default configuration (rules R37, R240; R4 for the default). -/
def State.reset : State := State.resetWith Config.default

end Sys2Proof.Machine
end

