-- ==== Sys2Proof/Machine/Ops.lean ====
section
/-! DEFINITION. The named operations on memory, registers, program counter, stack and output; raising a fault; fetching. -/

namespace Sys2Proof.Machine

/-! ### Memory (20_memory.md) -/

/-- The byte listed at address `a`, or `memReset` if none is. -/
def Memory.lookup (a : Nat) : Memory → Byte
  | [] => memReset
  | (k, v) :: rest => if k = a then v else Memory.lookup a rest

/-- Put `v` at address `a` in a rising list; a cell that holds `memReset` is not listed. -/
def Memory.insert (a : Nat) (v : Byte) : Memory → Memory
  | [] => if v = memReset then [] else [(a, v)]
  | (k, w) :: rest =>
    if a < k then (if v = memReset then (k, w) :: rest else (a, v) :: (k, w) :: rest)
    else if a = k then (if v = memReset then rest else (a, v) :: rest)
    else (k, w) :: Memory.insert a v rest

/-- The canonical form, for a list whose addresses start at `lo` or above. -/
def Memory.wfFrom (lo : Nat) : Memory → Bool
  | [] => true
  | (k, v) :: rest => decide (lo ≤ k) && decide (k < memSize) && decide (v ≠ memReset) && Memory.wfFrom (k + 1) rest

/-- Addresses strictly rising and inside the address space, and no entry equal to what an unlisted address reads as. -/
def Memory.wf (m : Memory) : Bool := Memory.wfFrom 0 m

/-- `MemRead(addr, 1)` (rule R52): the address is reduced modulo 256 (decision D3, log 5). -/
def Memory.read (m : Memory) (addr : Nat) : Byte := Memory.lookup (addr % memSize) m

/-- `MemWrite(addr, 1, v)` (rule R53): the address is reduced modulo 256. -/
def Memory.write (m : Memory) (addr : Nat) (v : Byte) : Memory := Memory.insert (addr % memSize) v m

/-- Write bytes at consecutive addresses, in order (the loader's contract of rule R63). -/
def Memory.writeList (m : Memory) (addr : Nat) : List Byte → Memory
  | [] => m
  | v :: rest => Memory.writeList (m.write addr v) (addr + 1) rest

/-- `MemRead` on a state. -/
def State.memRead (s : State) (addr : Byte) : Byte := s.mem.read addr.toNat

/-- `MemWrite` on a state. -/
def State.memWrite (s : State) (addr v : Byte) : State := { s with mem := s.mem.write addr.toNat v }

/-! ### Registers, program counter, flags, output -/

/-- `x[r]` (rule R21; no register is hard-wired). -/
def State.reg (s : State) (r : Reg) : Byte := s.regs[r.val]

/-- `x[r] <- v` (rules R21, R23). -/
def State.setReg (s : State) (r : Reg) (v : Byte) : State := { s with regs := s.regs.set r.val v }

/-- `sp`, the alias of `x[7]` (rule R22). -/
def State.sp (s : State) : Byte := s.reg spIndex

/-- `sp <- v`. -/
def State.setSp (s : State) (v : Byte) : State := s.setReg spIndex v

/-- `pc <- target`. -/
def State.setPc (s : State) (target : Byte) : State := { s with pc := target }

/-- `FL <- f`. -/
def State.setFl (s : State) (f : Flags) : State := { s with fl := f }

/-- `out <- out ++ [v]` (rules R34, R191). -/
def State.emit (s : State) (v : Byte) : State := { s with out := s.out ++ [v] }

/-- `run <- HALTED` (rule R192). -/
def State.halt (s : State) : State := { s with run := .halted }

/-- The address `n` bytes after the instruction's opcode byte, modulo 256 (rule R28; decision D4, log 5). -/
def State.pcPlus (s : State) (n : Nat) : Byte := BitVec.ofNat 8 (s.pc.toNat + n)

/-- Step 5 of the loop for an instruction with `n` operand bytes: `pc <- (pc + n + 1) mod 256` (rules R27, R116). -/
def State.advance (s : State) (n : Nat) : State := s.setPc (s.pcPlus (n + 1))

/-! ### The stack micro-operations (rule R160) -/

/-- `push(v)`: decrement `sp` modulo 256, then write at the new `sp`. The value is read from the state AFTER the
decrement (rules R161, R174; decision D15, log 13). -/
def State.push (s : State) (v : State → Byte) : State :=
  let s1 := s.setSp (s.sp - 1)
  s1.memWrite s1.sp (v s1)

/-- `pop()`: read at `sp`, hand the byte to its receiver, then increment `sp` modulo 256, which reads `sp` as the
receiver left it (rules R162, R175; decision D15, log 13). -/
def State.pop (s : State) (receive : Byte → State → State) : State :=
  let s1 := receive (s.memRead s.sp) s
  s1.setSp (s1.sp + 1)

/-! ### Faults: the one way an exception is taken -/

/-- `raise` (rules R8, R206): `run <- HALTED; fault <- cause`, and nothing else changes: no register, flag, memory
cell or output, and `pc` still addresses the faulting instruction. Every meaning raises before its first write (rule R207;
decision D13, log 9). There is no return from a fault (rule R209). -/
def raise (c : FaultCause) (s : State) : Result := .next { s with run := .halted, fault := some c }

/-- The numeric codes of rule R200 (decision D21, log 9). -/
def faultCode : Option FaultCause → Nat
  | none => 0
  | some .unknownInstruction => 1
  | some .unsupportedOperation => 2
  | some .invalidRegister => 3
  | some .divideByZero => 4

/-- The cause that an unrecognised opcode latches (rules R87, R201, R202). -/
def causeOf : DecodeError → FaultCause
  | .unknownInstruction => .unknownInstruction
  | .unsupportedOperation => .unsupportedOperation

/-! ### Fetch (rule R112) and the halted machine -/

/-- Byte `k` of the fetch window: address `pc + k` modulo 256. -/
def State.fetchByte (s : State) (k : Nat) : Byte := s.mem.read (s.pc.toNat + k)

/-- Steps 1 to 3 of rule R111: fetch three bytes unconditionally and recognise the opcode. -/
def State.fetchDecode (s : State) : Except DecodeError Instr :=
  decode (s.fetchByte 0) (s.fetchByte 1) (s.fetchByte 2)

/-- A halted machine is at a fixed point: nothing is fetched, nothing changes (rules R110, R120; log 6). -/
def idle (s : State) : Result := .next s

/-! ### The host's operations (rule R38) -/

/-- `load(image)` (rule R63): `mem[i mod 256] <- image[i]` in order, from `LOAD_BASE`; nothing else changes. -/
def State.load (s : State) (image : List Byte) : State := { s with mem := s.mem.writeList loadBase image }

/-- The initial state of a run: reset, then load (rule R242). -/
def State.initial (c : Config) (image : List Byte) : State := (State.resetWith c).load image

/-- Store an instruction's bytes where the next fetch reads them (log 15). -/
def State.placeAtPc (s : State) (bytes : List Byte) : State := { s with mem := s.mem.writeList s.pc.toNat bytes }

end Sys2Proof.Machine
end

