-- ==== Sys2Proof/Machine/Flags.lean ====
section
/-! DEFINITION. The flags (rules R29, R30) and the one computation that writes them, CMP's (rule R146). -/

namespace Sys2Proof.Machine

/-- `FL.E`, bit 0 (rule R29). -/
def flagE (f : Flags) : Bool := f.getLsbD 0

/-- `FL.G`, bit 1 (rule R29). -/
def flagG (f : Flags) : Bool := f.getLsbD 1

/-- `FL.L`, bit 2 (rule R29). -/
def flagL (f : Flags) : Bool := f.getLsbD 2

/-- The result `r` of the three-way unsigned comparison of rule R146: exactly one bit is set (the corrected contract,
90_conflicts.md C8; log 19). -/
def compareFlags (x y : Byte) : Flags :=
  if x.toNat > y.toNat then 0b010
  else if x.toNat < y.toNat then 0b100
  else 0b001

/-- How CMP combines its result with the old flags (rule R146): ORed in if `FLAGS_STICKY`, else replacing them
(decision D6, log 1). -/
def combineFlags (sticky : Bool) (old r : Flags) : Flags := if sticky then old ||| r else r

end Sys2Proof.Machine
end

