-- ==== Sys2Proof/Machine/Operands.lean ====
section
/-! DEFINITION. Operand forms (rule R83): the register operand with its validation (rules R24, R88, R115); the immediate is
the operand byte itself. -/

namespace Sys2Proof.Machine

/-- The register a register operand byte names: the whole byte is the index, 0 to 7 legal, no masking (rules R24,
R83(a)). -/
def regIndex? (b : Byte) : Option Reg := if h : b.toNat < 8 then some ⟨b.toNat, h⟩ else none

/-- The operand byte `00000rrr` of a register (rule R83(a)). -/
def regByte (r : Reg) : Byte := BitVec.ofNat 8 r.val

/-- Operand validation of a one-register instruction: `InvalidRegister` before any effect (rule R115; decision D10,
log 8). -/
def withReg (r : Byte) (s : State) (k : Reg → Result) : Result :=
  match regIndex? r with
  | some x => k x
  | none => raise .invalidRegister s

/-- Operand validation of a two-register instruction: one `InvalidRegister` if either byte is out of range (rule R115). -/
def withRegs (a b : Byte) (s : State) (k : Reg → Reg → Result) : Result :=
  withReg a s fun x => withReg b s fun y => k x y

end Sys2Proof.Machine
end

