-- ==== Sys2Proof/Machine/Alu.lean ====
section
/-! DEFINITION. The ALU instructions ADD, SUB, MUL, DIV, OR and CMP (41_alu.md). -/

namespace Sys2Proof.Machine

/-- What ADD, SUB, MUL, OR and a DIV that does not fault share (rule R140): both operands are read, `x[a]` is written,
no flag changes, the PC moves past three bytes. -/
def aluWrite (f : Byte → Byte → Byte) (a b : Reg) (s : State) : Result :=
  .next ((s.setReg a (f (s.reg a) (s.reg b))).advance 2)

/-- Rule R141: `x[a] <- (x[a] + x[b]) mod 256`. -/
def execAdd (a b : Byte) (s : State) : Result :=
  withRegs a b s fun ra rb => aluWrite (fun x y => BitVec.ofNat 8 (x.toNat + y.toNat)) ra rb s

/-- Rule R142: `x[a] <- (x[a] - x[b]) mod 256`, the non-negative remainder. -/
def execSub (a b : Byte) (s : State) : Result :=
  withRegs a b s fun ra rb => aluWrite (fun x y => BitVec.ofInt 8 ((x.toNat : Int) - (y.toNat : Int))) ra rb s

/-- Rule R143: `x[a] <- (x[a] * x[b]) mod 256`. -/
def execMul (a b : Byte) (s : State) : Result :=
  withRegs a b s fun ra rb => aluWrite (fun x y => BitVec.ofNat 8 (x.toNat * y.toNat)) ra rb s

/-- Rule R144: unsigned floor division; `DivideByZero`, before any write, if `x[b]` is 0 (rule R203; log 16). -/
def execDiv (a b : Byte) (s : State) : Result :=
  withRegs a b s fun ra rb =>
    if s.reg rb = 0 then raise .divideByZero s
    else aluWrite (fun x y => BitVec.ofNat 8 (x.toNat / y.toNat)) ra rb s

/-- Rule R145: bitwise inclusive OR. -/
def execOr (a b : Byte) (s : State) : Result :=
  withRegs a b s fun ra rb => aluWrite (fun x y => x ||| y) ra rb s

/-- Rule R146: the only writer of the flags (rule R30); no register is written. -/
def execCmp (a b : Byte) (s : State) : Result :=
  withRegs a b s fun ra rb =>
    .next ((s.setFl (combineFlags s.config.flagsSticky s.fl (compareFlags (s.reg ra) (s.reg rb)))).advance 2)

end Sys2Proof.Machine
end

