-- ==== Sys2Proof/Machine/Control.lean ====
section
/-! DEFINITION. The control-flow instructions JMP, JEQ, JNE, CALL and RET (43_control_flow.md). Each states its new PC in
full; the loop never advances it (rule R170). -/

namespace Sys2Proof.Machine

/-- A jump to `x[r]` if `taken`, else on to the next instruction, 2 bytes further (rules R172, R173; 90_conflicts.md C1,
log 17). -/
def branch (taken : Bool) (r : Reg) (s : State) : Result :=
  .next (if taken then s.setPc (s.reg r) else s.advance 1)

/-- Rule R171: `pc <- x[r]`. -/
def execJmp (r : Byte) (s : State) : Result :=
  withReg r s fun x => branch true x s

/-- Rule R172: jump if `FL.E` = 1. The operand is validated whether or not the jump is taken. -/
def execJeq (r : Byte) (s : State) : Result :=
  withReg r s fun x => branch (flagE s.fl) x s

/-- Rule R173: jump if `FL.E` = 0. -/
def execJne (r : Byte) (s : State) : Result :=
  withReg r s fun x => branch (!flagE s.fl) x s

/-- Rule R174: push `(pc + 2) mod 256`, then `pc <- x[r]`, read after the push. -/
def execCall (r : Byte) (s : State) : Result :=
  withReg r s fun x =>
    let s1 := s.push fun s1 => s1.pcPlus 2
    .next (s1.setPc (s1.reg x))

/-- Rule R175: pop into the PC. -/
def execRet (s : State) : Result := .next (s.pop fun v s1 => s1.setPc v)

end Sys2Proof.Machine
end

