-- ==== Sys2Proof/Machine/DataIo.lean ====
section
/-! DEFINITION. LDI, PRN and HLT (44_data_io_halt.md). -/

namespace Sys2Proof.Machine

/-- Rule R190: `x[r] <- opb`; every immediate byte is legal. -/
def execLdi (r i : Byte) (s : State) : Result :=
  withReg r s fun x => .next ((s.setReg x i).advance 2)

/-- Rule R191: append `x[r]` to the output stream. -/
def execPrn (r : Byte) (s : State) : Result :=
  withReg r s fun x => .next ((s.emit (s.reg x)).advance 1)

/-- Rule R192: `run <- HALTED`, `fault` untouched; the loop's advance applies to HLT too (decision D12, log 12). -/
def execHlt (s : State) : Result := .next (s.halt.advance 0)

end Sys2Proof.Machine
end

