-- ==== Sys2Proof/Machine/Stack.lean ====
section
/-! DEFINITION. The stack instructions PUSH and POP (42_stack.md). -/

namespace Sys2Proof.Machine

/-- Rule R161: the register is read after the decrement, so `PUSH R7` stores the decremented pointer. -/
def execPush (r : Byte) (s : State) : Result :=
  withReg r s fun x => .next ((s.push fun s1 => s1.reg x).advance 1)

/-- Rule R162: the register is written before the increment, so `POP R7` ends with the popped byte plus 1. -/
def execPop (r : Byte) (s : State) : Result :=
  withReg r s fun x => .next ((s.pop fun v s1 => s1.setReg x v).advance 1)

end Sys2Proof.Machine
end

