-- ==== Sys2Proof/Machine/Step.lean ====
section
/-! DEFINITION. One step of the machine (rule R111, 40_execution_cycle.md). -/

namespace Sys2Proof.Machine

/-- Rule R111: while `run` = `RUNNING`, fetch, recognise the opcode, execute; an unrecognised opcode raises its fault.
A halted machine does not move (rule R120). -/
def step (s : State) : Host.Outcome State Fault Refusal :=
  match s.run with
  | .halted => idle s
  | .running =>
    match s.fetchDecode with
    | .ok i => exec i s
    | .error e => raise (causeOf e) s

/-- `s` with an instruction, given as spec/opcode_table.json numbers its bits, stored at the program counter, where the
next step fetches it. Only memory changes; a halted machine still does not fetch (log 15). -/
def State.withFetchWord (s : State) (nbits w : Nat) : State := s.placeAtPc (tableBytes nbits w)

end Sys2Proof.Machine
end

