-- ==== Sys2Proof/Safety.lean ====
section
/-! DEFINITION. The terms in which claims are made: the invariant, how a run ends, what an instruction reads and writes. -/

namespace Sys2Proof.Machine

/-! ### The invariant of every reachable state -/

/-- The values the flags can hold when CMP replaces them: none set (before the first CMP) or exactly one (rule R146). -/
def flagsAtMostOne (f : Flags) : Bool := f == 0b000 || f == 0b001 || f == 0b010 || f == 0b100

/-- Memory is canonical; a running machine has latched no fault (rule R33); and with `FLAGS_STICKY` = false at most one
flag is set (rule R146). -/
structure Inv (s : State) : Prop where
  memWf : s.mem.wf = true
  runningNoFault : s.run = .running → s.fault = none
  flags : s.config.flagsSticky = false → flagsAtMostOne s.fl = true

/-! ### How a run ends (rules R118, R120) -/

/-- A normal end: halted by HLT (rule R33: `run` = `HALTED` and `fault` = `NONE`). -/
def endedNormally (s : State) : Bool := decide (s.run = .halted) && decide (s.fault = none)

/-- A fatal end: halted by a fault (rule R33: `run` = `HALTED` and `fault` ≠ `NONE`). -/
def endedFatally (s : State) : Bool := decide (s.run = .halted) && decide (s.fault ≠ none)

/-- `t` is where `n` steps lead from `s`. -/
def stepsTo (n : Nat) (s t : State) : Prop := Sys2Proof.core.run n s = .next t

/-! ### What the host leaves to the machine (rule R25) -/

/-- The register an operand byte names, if it is legal. -/
def named (b : Byte) : List Reg := (regIndex? b).toList

/-- The registers an instruction reads (the table of rule R25). -/
def readsRegs (i : Instr) (s : State) : List Reg :=
  match i with
  | .ldi _ _ => []
  | .prn r => named r
  | .add a b => named a ++ named b
  | .sub a b => named a ++ named b
  | .mul a b => named a ++ named b
  | .div a b => named a ++ named b
  | .cmp a b => named a ++ named b
  | .or a b => named a ++ named b
  | .push r => spIndex :: named r
  | .pop _ => [spIndex]
  | .jmp r => named r
  | .jeq r => if flagE s.fl then named r else []
  | .jne r => if flagE s.fl then [] else named r
  | .call r => spIndex :: named r
  | .ret => [spIndex]
  | .hlt => []

/-- The registers an instruction writes (the table of rule R25). -/
def writesRegs (i : Instr) : List Reg :=
  match i with
  | .ldi r _ => named r
  | .prn _ => []
  | .add a _ => named a
  | .sub a _ => named a
  | .mul a _ => named a
  | .div a _ => named a
  | .cmp _ _ => []
  | .or a _ => named a
  | .push _ => [spIndex]
  | .pop r => spIndex :: named r
  | .jmp _ => []
  | .jeq _ => []
  | .jne _ => []
  | .call _ => [spIndex]
  | .ret => [spIndex]
  | .hlt => []

/-- The address an instruction stores one byte to, if it is one of the two that store (rule R54): PUSH and CALL, at the
decremented stack pointer. -/
def storeAddress (i : Instr) (s : State) : Option Byte :=
  match i with
  | .push _ => some (s.setSp (s.sp - 1)).sp
  | .call _ => some (s.setSp (s.sp - 1)).sp
  | .ldi _ _ => none
  | .prn _ => none
  | .add _ _ => none
  | .sub _ _ => none
  | .mul _ _ => none
  | .div _ _ => none
  | .cmp _ _ => none
  | .or _ _ => none
  | .pop _ => none
  | .jmp _ => none
  | .jeq _ => none
  | .jne _ => none
  | .ret => none
  | .hlt => none

/-! ### Frames -/

/-- Every register outside `rs` is unchanged. -/
def SameRegsBut (rs : List Reg) (s t : State) : Prop := ∀ r, r ∉ rs → t.reg r = s.reg r

/-- Every byte of memory reads as before. -/
def SameMem (s t : State) : Prop := ∀ a : Byte, t.memRead a = s.memRead a

/-- Every byte of memory outside the one at `addr` reads as before. -/
def SameMemBut (addr : Byte) (s t : State) : Prop := ∀ a : Byte, a ≠ addr → t.memRead a = s.memRead a

/-- The loop's state, the fault latch and the configuration are unchanged. -/
def SameControl (s t : State) : Prop := t.run = s.run ∧ t.fault = s.fault ∧ t.config = s.config

/-- The two states differ at most in their flags and in the flag mode, and agree on the equal flag, the only flag an
instruction reads (rule R30). -/
def AgreeUpToFlagMode (s s' : State) : Prop :=
  s' = { s with fl := s'.fl, config := s'.config } ∧ flagE s'.fl = flagE s.fl

/-! ### Comparing two results -/

/-- Apply a change of state to a next state; a fault or refusal stays. -/
def mapNext (f : State → State) : Result → Result
  | .next s => .next (f s)
  | .fault r => .fault r
  | .refused r => .refused r

end Sys2Proof.Machine
end

