-- ==== Sys2Proof/Certificates/Slice0/Obligations.lean ====
section
/-! DEFINITION. The statements for the provers. D<n> is a decision of spec/92_eei_decisions.md: a clause that rests on one says
so in the docstring, and is the spec's or the model's choice, not the source's. -/

open Sys2Proof Sys2Proof.Machine

/-! ### Decoding and encoding (30_encoding.md) -/

/-- Rule R81: the three control fields of the opcode byte and the `id` label, for every byte. -/
def Obligations.ControlFieldsOfTheOpcodeByte : Prop :=
  ∀ ir : Byte,
    operandCount ir = ir.toNat / 64 ∧
    isAluOp ir = decide (ir.toNat / 32 % 2 = 1) ∧
    setsPc ir = decide (ir.toNat / 16 % 2 = 1) ∧
    idField ir = ir.toNat % 16

/-- Rule R85: the complete opcode table, every row with its operands and its four columns, and no other byte. -/
def Obligations.OpcodeTableIsDecodedAsWritten : Prop :=
  (∀ a b : Byte,
    decode 0b10000010 a b = .ok (.ldi a b) ∧ decode 0b01000111 a b = .ok (.prn a) ∧
    decode 0b10100000 a b = .ok (.add a b) ∧ decode 0b10100001 a b = .ok (.sub a b) ∧
    decode 0b10100010 a b = .ok (.mul a b) ∧ decode 0b10100011 a b = .ok (.div a b) ∧
    decode 0b10100111 a b = .ok (.cmp a b) ∧ decode 0b10101010 a b = .ok (.or a b) ∧
    decode 0b01000101 a b = .ok (.push a) ∧ decode 0b01000110 a b = .ok (.pop a) ∧
    decode 0b01010100 a b = .ok (.jmp a) ∧ decode 0b01010101 a b = .ok (.jeq a) ∧
    decode 0b01010110 a b = .ok (.jne a) ∧ decode 0b01010000 a b = .ok (.call a) ∧
    decode 0b00010001 a b = .ok .ret ∧ decode 0b00000001 a b = .ok .hlt) ∧
  (([0x82, 0x47, 0xA0, 0xA1, 0xA2, 0xA3, 0xA7, 0xAA, 0x45, 0x46, 0x54, 0x55, 0x56, 0x50, 0x11, 0x01] : List Byte).map
      fun ir => (operandCount ir, isAluOp ir, setsPc ir, idField ir)) =
    [(2, false, false, 0x2), (1, false, false, 0x7), (2, true, false, 0x0), (2, true, false, 0x1),
     (2, true, false, 0x2), (2, true, false, 0x3), (2, true, false, 0x7), (2, true, false, 0xA),
     (1, false, false, 0x5), (1, false, false, 0x6), (1, false, true, 0x4), (1, false, true, 0x5),
     (1, false, true, 0x6), (1, false, true, 0x0), (0, false, true, 0x1), (0, false, false, 0x1)] ∧
  (∀ (ir a b : Byte) (i : Instr), decode ir a b = .ok i →
    ir ∈ ([0x82, 0x47, 0xA0, 0xA1, 0xA2, 0xA3, 0xA7, 0xAA, 0x45, 0x46, 0x54, 0x55, 0x56, 0x50, 0x11, 0x01] : List Byte))

/-- Decoding an encoded instruction gives it back, every instruction with every operand byte: from its bytes, whatever
bytes follow them (rules R80, R82, R89), and from any canonical memory they are stored in at the program counter, at every
address, the last ones included (there the window wraps, decision D3). -/
def Obligations.DecodeOfEncodeIsTheInstruction : Prop :=
  (∀ (i : Instr) (x y : Byte), decodeBytes (encode i ++ [x, y]) = .ok i) ∧
  (∀ (i : Instr) (s : State), s.mem.wf = true → (s.placeAtPc (encode i)).fetchDecode = .ok i)

/-- Every window that decodes is the encoding of its instruction: its first `operand_count + 1` bytes (rule R80), so
that two different instructions never share a word. -/
def Obligations.EncodeOfDecodeIsTheWindow : Prop :=
  ∀ (ir opa opb : Byte) (i : Instr), decode ir opa opb = .ok i →
    encode i = [ir, opa, opb].take (operandCount ir + 1)

/-- Fetched bytes beyond the instruction's length do not influence what is decoded (rule R89). -/
def Obligations.BytesBeyondTheInstructionAreIgnored : Prop :=
  ∀ ir opa opb opa' opb' : Byte,
    (operandCount ir = 0 → decode ir opa opb = decode ir opa' opb') ∧
    (operandCount ir = 1 → decode ir opa opb = decode ir opa opb')

/-! ### The step (40_execution_cycle.md) -/

/-- While the machine runs, a window that decodes to `i` makes the step the effect of `i`, nothing around it: the PC
change is part of `exec` (rule R111). That the window wraps at 255 is decision D3. -/
def Obligations.StepRunsTheDecodedInstruction : Prop :=
  ∀ (s : State) (i : Instr), s.run = .running →
    decode (s.memRead s.pc) (s.memRead (s.pc + 1)) (s.memRead (s.pc + 2)) = .ok i →
    step s = exec i s

/-- A byte that is none of the 16 opcodes is fatal, with the fault its bit 5 selects (rules R87, R201, R202); 122 bytes are of
the first class and 118 of the second; 0x00 is of the second. That the cause is latched is decision D5, and that nothing else
changes is rule R206, for UnsupportedOperation decision D13: both are the spec's own choices (log 9, DESIGN CHOICE); that
the fault is a next state is the model's reading (log 7, DEDUCED). -/
def Obligations.UndefinedOpcodeIsFatal : Prop :=
  (∀ s : State, s.run = .running →
    s.memRead s.pc ∉
      ([0x82, 0x47, 0xA0, 0xA1, 0xA2, 0xA3, 0xA7, 0xAA, 0x45, 0x46, 0x54, 0x55, 0x56, 0x50, 0x11, 0x01] : List Byte) →
    step s = .next { s with
      run := .halted
      fault := some (if isAluOp (s.memRead s.pc) then .unsupportedOperation else .unknownInstruction) }) ∧
  ((List.range 256).countP fun n => decode (BitVec.ofNat 8 n) 0 0 == .error .unsupportedOperation) = 122 ∧
  ((List.range 256).countP fun n => decode (BitVec.ofNat 8 n) 0 0 == .error .unknownInstruction) = 118 ∧
  decode 0x00 0 0 = .error .unknownInstruction

/-- Rule R121: an unrecognised opcode at the PC ends execution, does not advance the PC and prints nothing; the PC still
addresses the undefined byte, and no later instruction executes, however often the machine is stepped (that a step of the
halted machine answers the same state is the model's reading, log 6; that the fault is a next state, log 7). -/
def Obligations.UnrecognizedOpcodeEndsTheRun : Prop :=
  ∀ s : State, s.run = .running →
    s.memRead s.pc ∉
      ([0x82, 0x47, 0xA0, 0xA1, 0xA2, 0xA3, 0xA7, 0xAA, 0x45, 0x46, 0x54, 0x55, 0x56, 0x50, 0x11, 0x01] : List Byte) →
    ∃ t, step s = .next t ∧ t.run = .halted ∧ t.pc = s.pc ∧ t.out = s.out ∧ t.memRead t.pc = s.memRead s.pc ∧
      ∀ (n : Nat) (u : State), stepsTo n t u → u = t

/-- Every state has a next state: no step stops without one. Of a running state the spec says so (rule R119; part 1 of
93_implementation_defined.md), with a fault as a next state by the model's reading (log 7, DEDUCED). Of a halted state the spec
says that it is a fixed point (rules R110, R120) and also that step is not applicable: that step answers the same state there is
the model's reading (log 6, DEDUCED). -/
def Obligations.EveryStateHasANextState : Prop :=
  ∀ s : State, ∃ t, step s = .next t

/-- A halted machine is at a fixed point for any number of steps (rules R110, R120; that a step of it answers the same
state is the model's reading, log 6), and so is one whose fault latch holds a cause (rule R209), by the invariant. -/
def Obligations.HaltedMachineNeverMoves : Prop :=
  (∀ (s : State) (n : Nat), s.run = .halted → stepsTo n s s) ∧
  (∀ (s : State) (n : Nat), Inv s → s.fault ≠ none → stepsTo n s s)

/-- The transitions of rule R110: from a running state a step ends the run exactly when the instruction is HLT, with no
fault latched, or when it raises a fault. RET, for one, never does (90_conflicts.md C6). What raises is decided in part by
D2 and D10. -/
def Obligations.StepHaltsExactlyOnHltOrFault : Prop :=
  ∀ s t : State, s.run = .running → s.fault = none → step s = .next t →
    ((t.run = .halted ∧ t.fault = none) ↔ s.fetchDecode = .ok .hlt) ∧
    (t.run = .running ↔ (t.fault = none ∧ s.fetchDecode ≠ .ok .hlt))

/-- Which fault a step latches, and with what priority (rules R200, R208; decisions D2, D10, D14): an undefined opcode,
then an operand byte above 7, then a zero divisor; else none. -/
def Obligations.FaultLatchedByAStep : Prop :=
  ∀ s t : State, s.run = .running → s.fault = none → step s = .next t →
    (∀ e, s.fetchDecode = .error e → t.fault = some (causeOf e)) ∧
    (∀ i, s.fetchDecode = .ok i → i.wellFormed = false → t.fault = some .invalidRegister) ∧
    (∀ a b : Reg, s.fetchDecode = .ok (.div (regByte a) (regByte b)) → s.reg b = 0 → t.fault = some .divideByZero) ∧
    (∀ i, s.fetchDecode = .ok i → i.wellFormed = true →
      (∀ a b : Reg, i = .div (regByte a) (regByte b) → s.reg b ≠ 0) → t.fault = none)

/-- Faults are precise (rules R206, R207; for causes other than an unknown opcode decision D13): a step that latches a
fault changes the run state and the latch and nothing else. -/
def Obligations.FaultsArePrecise : Prop :=
  ∀ s t : State, s.fault = none → step s = .next t → t.fault ≠ none →
    t = { s with run := .halted, fault := t.fault }

/-- An instruction with an operand byte above 7 in a register position raises `InvalidRegister` before any effect,
whether or not it would have used the register (rule R115; decision D10, log 8). -/
def Obligations.OutOfRangeOperandRaisesInvalidRegister : Prop :=
  ∀ (i : Instr) (s : State), i.wellFormed = false →
    exec i s = .next { s with run := .halted, fault := some .invalidRegister }

/-- The normal advance (rules R27, R116; the wrap at 255 is decision D4, HLT's advance decision D12): an instruction whose
opcode byte has bit 4 clear and that raises no fault moves the PC by the operand count of its opcode byte plus 1. A JEQ or JNE
that is not taken moves it the same distance (90_conflicts.md C1). -/
def Obligations.PcAdvancesByOperandCountPlusOne : Prop :=
  ∀ (i : Instr) (s t : State), i.wellFormed = true →
    (∀ a b : Reg, i = .div (regByte a) (regByte b) → s.reg b ≠ 0) →
    (setsPc (opcodeByte i) = false ∨ (∃ r, i = .jeq r ∧ flagE s.fl = false) ∨ (∃ r, i = .jne r ∧ flagE s.fl = true)) →
    exec i s = .next t →
    t.pc.toNat = (s.pc.toNat + operandCount (opcodeByte i) + 1) % 256

/-- The three possible outcomes of a run (rule R118): it ends normally, or it ends fatally, or it never ends, and no two
of them (steps counted after the end answer the same state, log 6; a fatal end is a next state, log 7). -/
def Obligations.RunHasExactlyOneOutcome : Prop :=
  ∀ s : State,
    let normal := ∃ n t, stepsTo n s t ∧ endedNormally t = true
    let fatal := ∃ n t, stepsTo n s t ∧ endedFatally t = true
    let infinite := ∀ n, ∃ t, stepsTo n s t ∧ t.run = .running
    (normal ∨ fatal ∨ infinite) ∧ ¬(normal ∧ fatal) ∧ ¬(normal ∧ infinite) ∧ ¬(fatal ∧ infinite)

/-! ### Reset, loading, the invariant (10_state.md, 20_memory.md, 70_reset_and_hazards.md) -/

/-- The state after reset (rules R37, R240). The source states only `sp` = 0xF4 and `pc` = 0 and the RUNNING start; the
flags are decision D7, `x[0]`..`x[6]` are decision D8 (log 2), memory is decision D9 (log 3), and the flag mode is the
default of D6 (log 1). -/
def Obligations.ResetValues : Prop :=
  State.reset.sp = 0xF4 ∧ State.reset.pc = 0 ∧ State.reset.run = .running ∧ State.reset.fault = none ∧
  State.reset.out = [] ∧ State.reset.fl = 0b000 ∧ (∀ r : Reg, r ≠ 7 → State.reset.reg r = 0) ∧
  (∀ a : Byte, State.reset.memRead a = 0) ∧ State.reset.config.flagsSticky = false

/-- The invariant holds right after reset, in either flag mode. -/
def Obligations.InvariantHoldsAtReset : Prop :=
  ∀ c : Config, Inv (State.resetWith c)

/-- The invariant holds in the initial state of every run, whatever image is loaded (rule R242). -/
def Obligations.InvariantHoldsAfterLoading : Prop :=
  ∀ (c : Config) (image : List Byte), Inv (State.initial c image)

/-- Every step keeps the invariant, from every state that meets it: memory stays canonical, a running machine has no
fault latched (rule R33), and with `FLAGS_STICKY` = false at most one flag is set (rule R146). -/
def Obligations.StepKeepsTheInvariant : Prop :=
  ∀ s t : State, Inv s → step s = .next t → Inv t

/-- Loading (rule R63; images above 256 bytes are decision D18): after `load(image)` the cell `i mod 256` holds
`image[i]` for the last such `i`, a cell the image does not reach is unchanged, and nothing but memory changes. -/
def Obligations.LoadPlacesTheImage : Prop :=
  ∀ (s : State) (image : List Byte), s.mem.wf = true →
    (∀ (i : Nat) (v : Byte), image[i]? = some v → image.length ≤ i + 256 → (s.load image).mem.read i = v) ∧
    (∀ a : Byte, image.length ≤ a.toNat → (s.load image).memRead a = s.memRead a) ∧
    s.load image = { s with mem := (s.load image).mem }

/-- Rule R53: `MemWrite(addr, 1, v)` sets the cell `addr mod 256` and changes no other cell, on every canonical memory
(that memory stays canonical is `Obligations.StepKeepsTheInvariant`). -/
def Obligations.WriteSetsOneCell : Prop :=
  ∀ (m : Memory) (addr : Nat) (v : Byte), m.wf = true →
    ∀ a : Nat, a < 256 → (m.write addr v).read a = if a = addr % 256 then v else m.read a

/-- Two canonical memories that read alike at every address are the same data (the model's representation, log 3). -/
def Obligations.EqualMemoriesAreEqualData : Prop :=
  ∀ m m' : Memory, m.wf = true → m'.wf = true → (∀ a : Nat, a < 256 → m.read a = m'.read a) → m = m'

/-- An instruction word placed by `withFetchWord` in a running machine is the one the next step runs (log 15). -/
def Obligations.PlacedWordIsTheNextInstruction : Prop :=
  ∀ (s : State) (nbits w : Nat) (i : Instr), s.run = .running → s.mem.wf = true →
    decodeTableWord nbits w = some i →
    step (s.withFetchWord nbits w) = exec i (s.withFetchWord nbits w)

/-! ### The ALU (41_alu.md). The PC wrap is decision D4. -/

/-- ADD completes for all legal operands and in every state (rule R141): the sum modulo 256, PC + 3, nothing else. -/
def Obligations.AddWrites : Prop :=
  ∀ (a b : Reg) (s : State), ∃ t, exec (.add (regByte a) (regByte b)) s = .next t ∧
    (t.reg a).toNat = ((s.reg a).toNat + (s.reg b).toNat) % 256 ∧
    t.pc.toNat = (s.pc.toNat + 3) % 256 ∧
    SameRegsBut [a] s t ∧ t.fl = s.fl ∧ SameMem s t ∧ t.out = s.out ∧ SameControl s t

/-- SUB completes (rule R142): the difference modulo 256, the non-negative remainder. -/
def Obligations.SubWrites : Prop :=
  ∀ (a b : Reg) (s : State), ∃ t, exec (.sub (regByte a) (regByte b)) s = .next t ∧
    ((t.reg a).toNat : Int) = (((s.reg a).toNat : Int) - ((s.reg b).toNat : Int)) % 256 ∧
    t.pc.toNat = (s.pc.toNat + 3) % 256 ∧
    SameRegsBut [a] s t ∧ t.fl = s.fl ∧ SameMem s t ∧ t.out = s.out ∧ SameControl s t

/-- MUL completes (rule R143): the low 8 bits of the product. -/
def Obligations.MulWrites : Prop :=
  ∀ (a b : Reg) (s : State), ∃ t, exec (.mul (regByte a) (regByte b)) s = .next t ∧
    (t.reg a).toNat = ((s.reg a).toNat * (s.reg b).toNat) % 256 ∧
    t.pc.toNat = (s.pc.toNat + 3) % 256 ∧
    SameRegsBut [a] s t ∧ t.fl = s.fl ∧ SameMem s t ∧ t.out = s.out ∧ SameControl s t

/-- DIV completes for every non-zero divisor (rule R144; decision D2): the floor of the quotient. -/
def Obligations.DivWrites : Prop :=
  ∀ (a b : Reg) (s : State), s.reg b ≠ 0 → ∃ t, exec (.div (regByte a) (regByte b)) s = .next t ∧
    (t.reg a).toNat = (s.reg a).toNat / (s.reg b).toNat ∧
    t.pc.toNat = (s.pc.toNat + 3) % 256 ∧
    SameRegsBut [a] s t ∧ t.fl = s.fl ∧ SameMem s t ∧ t.out = s.out ∧ SameControl s t

/-- DIV by a register that holds 0 raises `DivideByZero` and changes nothing else (rules R144, R203; decision D2). -/
def Obligations.DivideByZeroRaises : Prop :=
  ∀ (a b : Reg) (s : State), s.reg b = 0 →
    exec (.div (regByte a) (regByte b)) s = .next { s with run := .halted, fault := some .divideByZero }

/-- OR completes (rule R145): bit `i` of the result is the OR of the operands' bits `i`. -/
def Obligations.OrWrites : Prop :=
  ∀ (a b : Reg) (s : State), ∃ t, exec (.or (regByte a) (regByte b)) s = .next t ∧
    (∀ i : Nat, (t.reg a).getLsbD i = ((s.reg a).getLsbD i || (s.reg b).getLsbD i)) ∧
    t.pc.toNat = (s.pc.toNat + 3) % 256 ∧
    SameRegsBut [a] s t ∧ t.fl = s.fl ∧ SameMem s t ∧ t.out = s.out ∧ SameControl s t

/-- CMP completes (rule R146; the two modes are decision D6, log 1). With `FLAGS_STICKY` = false the flags are the outcome
of this comparison of unsigned values alone; with true the outcome is ORed in. No register is written. -/
def Obligations.CmpWritesTheFlags : Prop :=
  ∀ (a b : Reg) (s : State), ∃ t, exec (.cmp (regByte a) (regByte b)) s = .next t ∧
    (let old := fun f : Bool => s.config.flagsSticky && f
     flagE t.fl = (old (flagE s.fl) || decide ((s.reg a).toNat = (s.reg b).toNat)) ∧
     flagG t.fl = (old (flagG s.fl) || decide ((s.reg a).toNat > (s.reg b).toNat)) ∧
     flagL t.fl = (old (flagL s.fl) || decide ((s.reg a).toNat < (s.reg b).toNat))) ∧
    t.pc.toNat = (s.pc.toNat + 3) % 256 ∧
    SameRegsBut [] s t ∧ SameMem s t ∧ t.out = s.out ∧ SameControl s t

/-- `ADD a, b` then `SUB a, b` restores every register when `a ≠ b` (rule R148(f)). -/
def Obligations.SubUndoesAdd : Prop :=
  ∀ (a b : Reg) (s : State), a ≠ b → ∃ t u, exec (.add (regByte a) (regByte b)) s = .next t ∧
    exec (.sub (regByte a) (regByte b)) t = .next u ∧ SameRegsBut [] s u

/-! ### The stack (42_stack.md). The wrap of `sp` is decision D11, register 7 as the operand decision D15 (log 13). -/

/-- PUSH completes (rule R161): `sp` - 1 modulo 256, then the register, as the decrement left it, at the new `sp`; every
other byte of memory and every other register is unchanged. -/
def Obligations.PushStores : Prop :=
  ∀ (r : Reg) (s : State), s.mem.wf = true → ∃ addr t, exec (.push (regByte r)) s = .next t ∧
    storeAddress (.push (regByte r)) s = some addr ∧
    addr.toNat = (s.sp.toNat + 255) % 256 ∧ t.sp = addr ∧
    t.memRead addr = (if r = spIndex then addr else s.reg r) ∧
    t.pc.toNat = (s.pc.toNat + 2) % 256 ∧
    SameRegsBut [spIndex] s t ∧ t.fl = s.fl ∧ SameMemBut addr s t ∧ t.out = s.out ∧ SameControl s t

/-- POP completes (rule R162): the byte at `sp` goes to the register, then register 7 is incremented modulo 256; `POP R7`
ends with the popped byte plus 1. Memory is unchanged. -/
def Obligations.PopLoads : Prop :=
  ∀ (r : Reg) (s : State), ∃ t, exec (.pop (regByte r)) s = .next t ∧
    (r ≠ spIndex → t.reg r = s.memRead s.sp ∧ t.sp.toNat = (s.sp.toNat + 1) % 256) ∧
    (r = spIndex → t.sp.toNat = ((s.memRead s.sp).toNat + 1) % 256) ∧
    t.pc.toNat = (s.pc.toNat + 2) % 256 ∧
    SameRegsBut [spIndex, r] s t ∧ t.fl = s.fl ∧ SameMem s t ∧ t.out = s.out ∧ SameControl s t

/-- The push-pop law (rule R163, which the spec derives): PUSH then POP of one register leaves every register as it was,
for register 7 too; of two registers other than 7 it copies; `PUSH R7` copies the decremented pointer; `POP R7` ends with the
pushed value plus 1. -/
def Obligations.PushThenPop : Prop :=
  ∀ (p q : Reg) (s : State), s.mem.wf = true → ∃ t u, exec (.push (regByte p)) s = .next t ∧
    exec (.pop (regByte q)) t = .next u ∧
    (p = q → SameRegsBut [] s u) ∧
    (p ≠ spIndex → q ≠ spIndex → u.reg q = s.reg p ∧ u.sp = s.sp) ∧
    (p = spIndex → q ≠ spIndex → u.reg q = s.sp - 1 ∧ u.sp = s.sp) ∧
    (p ≠ spIndex → q = spIndex → u.sp = s.reg p + 1) ∧
    SameRegsBut [spIndex, q] s u

/-- A pushed byte is seen by the very next fetch (rule R62, which the spec derives): if PUSH leaves the PC at the cell it
wrote, the next step executes what the pushed byte says. -/
def Obligations.PushedByteIsFetchedNext : Prop :=
  ∀ (r : Reg) (s t : State) (i : Instr), s.mem.wf = true → exec (.push (regByte r)) s = .next t →
    t.run = .running → t.pc = t.sp →
    decode (t.reg r) (t.memRead (t.pc + 1)) (t.memRead (t.pc + 2)) = .ok i →
    step t = exec i t

/-! ### Control flow (43_control_flow.md) -/

/-- JMP completes (rule R171): the PC is the register, nothing else changes. -/
def Obligations.JmpSetsThePc : Prop :=
  ∀ (r : Reg) (s : State), ∃ t, exec (.jmp (regByte r)) s = .next t ∧ t.pc = s.reg r ∧
    SameRegsBut [] s t ∧ t.fl = s.fl ∧ SameMem s t ∧ t.out = s.out ∧ SameControl s t

/-- JEQ and JNE complete (rules R172, R173): they branch to the register exactly when the equal flag is set and clear
respectively; not taken, the PC moves by 2 (90_conflicts.md C1; its wrap is decision D4). Nothing else changes. -/
def Obligations.ConditionalJumpsTestTheEqualFlag : Prop :=
  ∀ (r : Reg) (s : State),
    (∃ t, exec (.jeq (regByte r)) s = .next t ∧
      (flagE s.fl = true → t.pc = s.reg r) ∧ (flagE s.fl = false → t.pc.toNat = (s.pc.toNat + 2) % 256) ∧
      SameRegsBut [] s t ∧ t.fl = s.fl ∧ SameMem s t ∧ t.out = s.out ∧ SameControl s t) ∧
    (∃ t, exec (.jne (regByte r)) s = .next t ∧
      (flagE s.fl = false → t.pc = s.reg r) ∧ (flagE s.fl = true → t.pc.toNat = (s.pc.toNat + 2) % 256) ∧
      SameRegsBut [] s t ∧ t.fl = s.fl ∧ SameMem s t ∧ t.out = s.out ∧ SameControl s t)

/-- CALL completes (rule R174; wraps D4 and D11, `CALL R7` D15): the return address, the address of the next instruction,
goes to the decremented `sp`; then the PC is the register as the push left it. -/
def Obligations.CallPushesTheReturnAddress : Prop :=
  ∀ (r : Reg) (s : State), s.mem.wf = true → ∃ addr t, exec (.call (regByte r)) s = .next t ∧
    storeAddress (.call (regByte r)) s = some addr ∧
    addr.toNat = (s.sp.toNat + 255) % 256 ∧ t.sp = addr ∧
    (t.memRead addr).toNat = (s.pc.toNat + 2) % 256 ∧
    t.pc = (if r = spIndex then addr else s.reg r) ∧
    SameRegsBut [spIndex] s t ∧ t.fl = s.fl ∧ SameMemBut addr s t ∧ t.out = s.out ∧ SameControl s t

/-- RET completes in every state (rule R175; the wrap of `sp` is D11): the byte at `sp` goes to the PC and `sp` moves up by 1;
it never halts the machine. -/
def Obligations.RetPopsThePc : Prop :=
  ∀ s : State, ∃ t, exec .ret s = .next t ∧ t.pc = s.memRead s.sp ∧ t.sp.toNat = (s.sp.toNat + 1) % 256 ∧
    SameRegsBut [spIndex] s t ∧ t.fl = s.fl ∧ SameMem s t ∧ t.out = s.out ∧ SameControl s t

/-- The call-return law (rule R176, which the spec derives): from any later state whose `sp` and return-address cell are as the
CALL left them, RET continues 2 bytes after the CALL with `sp` as it was before it. -/
def Obligations.RetReturnsAfterTheCall : Prop :=
  ∀ (r : Reg) (s t u : State), s.mem.wf = true → exec (.call (regByte r)) s = .next t →
    u.sp = t.sp → u.memRead u.sp = t.memRead t.sp →
    ∃ v, exec .ret u = .next v ∧ v.pc.toNat = (s.pc.toNat + 2) % 256 ∧ v.sp = s.sp

/-! ### LDI, PRN, HLT (44_data_io_halt.md) -/

/-- LDI completes for every register and every immediate (rule R190): "register r holds v and no other register or flag
changes". The PC wrap is decision D4. -/
def Obligations.LdiLoadsTheImmediate : Prop :=
  ∀ (r : Reg) (v : Byte) (s : State), ∃ t, exec (.ldi (regByte r) v) s = .next t ∧ t.reg r = v ∧
    t.pc.toNat = (s.pc.toNat + 3) % 256 ∧
    SameRegsBut [r] s t ∧ t.fl = s.fl ∧ SameMem s t ∧ t.out = s.out ∧ SameControl s t

/-- PRN completes (rule R191; that the stream is a list of bytes is decision D16): the register's value is appended, nothing
else changes but the PC. -/
def Obligations.PrnAppendsTheRegister : Prop :=
  ∀ (r : Reg) (s : State), ∃ t, exec (.prn (regByte r)) s = .next t ∧ t.out = s.out ++ [s.reg r] ∧
    t.pc.toNat = (s.pc.toNat + 2) % 256 ∧
    SameRegsBut [] s t ∧ t.fl = s.fl ∧ SameMem s t ∧ SameControl s t

/-- HLT completes (rule R192; that the PC advances by 1 is decision D12): the loop is HALTED, the fault latch untouched. -/
def Obligations.HltHalts : Prop :=
  ∀ s : State, ∃ t, exec .hlt s = .next t ∧ t.run = .halted ∧ t.fault = s.fault ∧
    t.pc.toNat = (s.pc.toNat + 1) % 256 ∧
    SameRegsBut [] s t ∧ t.fl = s.fl ∧ SameMem s t ∧ t.out = s.out ∧ t.config = s.config

/-! ### Rules about the whole machine -/

/-- Rule R25: no instruction writes a register outside its row of the table; a register an instruction neither reads nor
writes passes through it untouched and unseen; one it writes without reading (LDI, POP) has no influence by its old value;
after a valid LDI(r, v) register r holds v and no other register or flag has changed. -/
def Obligations.RegistersReadAndWritten : Prop :=
  ∀ (i : Instr) (s : State),
    (∀ t, exec i s = .next t → SameRegsBut (writesRegs i) s t) ∧
    (∀ (r : Reg) (v : Byte), r ∉ readsRegs i s → r ∉ writesRegs i →
      exec i (s.setReg r v) = mapNext (fun t => t.setReg r v) (exec i s)) ∧
    (∀ (r : Reg) (v : Byte), r ∉ readsRegs i s → r ∈ writesRegs i → exec i (s.setReg r v) = exec i s) ∧
    (∀ (r : Reg) (v : Byte) (t : State), i = .ldi (regByte r) v → exec i s = .next t →
      t.reg r = v ∧ SameRegsBut [r] s t ∧ t.fl = s.fl)

/-- Rule R30: CMP is the only instruction that writes the flags, at the level of instructions and of steps; JEQ and JNE are
the only others that read them, and they read the equal flag alone. -/
def Obligations.FlagsAreWrittenByCmpAndReadByJumps : Prop :=
  (∀ (i : Instr) (s t : State), (∀ a b, i ≠ .cmp a b) → exec i s = .next t → t.fl = s.fl) ∧
  (∀ s t : State, (∀ a b, s.fetchDecode ≠ .ok (.cmp a b)) → step s = .next t → t.fl = s.fl) ∧
  (∀ (i : Instr) (s : State) (f : Flags), (∀ a b, i ≠ .cmp a b) → (∀ r, i ≠ .jeq r) → (∀ r, i ≠ .jne r) →
    exec i (s.setFl f) = mapNext (fun t => t.setFl f) (exec i s)) ∧
  (∀ (r : Byte) (s : State) (f : Flags), flagE f = flagE s.fl →
    exec (.jeq r) (s.setFl f) = mapNext (fun t => t.setFl f) (exec (.jeq r) s) ∧
    exec (.jne r) (s.setFl f) = mapNext (fun t => t.setFl f) (exec (.jne r) s))

/-- Memory is reached only through the stack (rule R54). What is changed: every byte but the one PUSH or CALL stores is
unchanged by every instruction. What is read, once the instruction is fetched, exchanging memory for any other `m`:
an instruction that neither stores nor pops has the same effect and leaves `m`; PUSH and CALL have the same effect on everything
but memory, and store the same byte at the same address; POP and RET have the same effect if `m` agrees on the one byte at `sp`. -/
def Obligations.MemoryIsReachedOnlyThroughTheStack : Prop :=
  (∀ (i : Instr) (s t : State), exec i s = .next t →
    ∀ a : Byte, storeAddress i s ≠ some a → t.memRead a = s.memRead a) ∧
  (∀ (i : Instr) (s : State) (m : Memory), storeAddress i s = none → (∀ r, i ≠ .pop r) → i ≠ .ret →
    exec i { s with mem := m } = mapNext (fun t => { t with mem := m }) (exec i s)) ∧
  (∀ (i : Instr) (s t : State) (m : Memory) (addr : Byte), storeAddress i s = some addr → exec i s = .next t →
    ∃ u, exec i { s with mem := m } = .next u ∧ storeAddress i { s with mem := m } = some addr ∧
      u = { t with mem := u.mem } ∧
      (i.wellFormed = true → s.mem.wf = true → m.wf = true → u.memRead addr = t.memRead addr)) ∧
  (∀ (i : Instr) (s : State) (m : Memory), (i = .ret ∨ ∃ r, i = .pop r) → m.read s.sp.toNat = s.memRead s.sp →
    exec i { s with mem := m } = mapNext (fun t => { t with mem := m }) (exec i s))

/-- The output stream is append-only and only PRN appends to it, one byte each time (rule R34; decision D16). -/
def Obligations.OutputIsAppendOnly : Prop :=
  (∀ s t : State, (∀ r, s.fetchDecode ≠ .ok (.prn r)) → step s = .next t → t.out = s.out) ∧
  (∀ (n : Nat) (s t : State), stepsTo n s t → ∃ new : List Byte, t.out = s.out ++ new ∧ new.length ≤ n)

/-- No number of steps changes the configuration parameter (the model's own field, log 1). -/
def Obligations.FlagModeNeverChanges : Prop :=
  ∀ (n : Nat) (s t : State), stepsTo n s t → t.config = s.config

/-- The stale-flag hazard (rule R244; decision D6): with `FLAGS_STICKY` = true a flag once set stays set for the rest of the
run. -/
def Obligations.StickyFlagsAreNeverCleared : Prop :=
  ∀ (n : Nat) (s t : State), s.config.flagsSticky = true → stepsTo n s t →
    (flagE s.fl = true → flagE t.fl = true) ∧ (flagG s.fl = true → flagG t.fl = true) ∧
    (flagL s.fl = true → flagL t.fl = true)

/-- When the two flag modes behave alike (rule R244(b); decision D6; a condition on every CMP, stronger than the rule's on
every JEQ and JNE): if no CMP of the run executes with the equal flag already set, a machine with `FLAGS_STICKY` = false and
one with true that start alike stay alike in everything but the other flags, for any number of steps. -/
def Obligations.FlagModesAgreeWithoutStaleEqual : Prop :=
  ∀ (n : Nat) (s s' t t' : State), s.config.flagsSticky = false → s'.config.flagsSticky = true →
    AgreeUpToFlagMode s s' →
    (∀ (k : Nat) (u : State) (a b : Byte), k < n → stepsTo k s u → u.fetchDecode = .ok (.cmp a b) →
      flagE u.fl = false) →
    stepsTo n s t → stepsTo n s' t' → AgreeUpToFlagMode t t'
end

