-- ==== Sys2Proof/Laws/Decode.lean ====
section
/-! SUPPORT. What the decoder can answer. -/

namespace Sys2Proof

/-- A window that decodes starts with the instruction's opcode byte and goes on with its operand bytes. -/
theorem decode_ok {ir opa opb : Byte} {i : Instr} (h : decode ir opa opb = .ok i) :
    ir = opcodeByte i ∧ operandBytes i = [opa, opb].take (operandCount ir) := by
  unfold decode at h
  split at h
  · unfold decodeAlu at h
    split at h <;> cases h <;> exact ⟨rfl, by simp [operandBytes, operandCount]⟩
  · unfold decodeNonAlu at h
    split at h <;> cases h <;> exact ⟨rfl, by simp [operandBytes, operandCount]⟩

/-- A window that does not decode is refused in the class its bit 5 selects. -/
theorem decode_error {ir opa opb : Byte} {e : DecodeError} (h : decode ir opa opb = .error e) :
    e = if isAluOp ir then .unsupportedOperation else .unknownInstruction := by
  unfold decode at h
  split at h
  · rename_i ha
    unfold decodeAlu at h
    split at h <;> cases h
    exact (if_pos ha).symm
  · rename_i ha
    unfold decodeNonAlu at h
    split at h <;> cases h
    exact (if_neg ha).symm

end Sys2Proof
end

