-- ==== Sys2Proof/Laws/State.lean ====
section
/-! SUPPORT. One lemma per field per update of State, so that no proof unfolds a record update. -/

namespace Sys2Proof.Machine

/-! ### Registers -/

@[simp] theorem State.reg_setReg (s : State) (r r' : Reg) (v : Byte) :
    (s.setReg r v).reg r' = if r' = r then v else s.reg r' := by
  simp only [State.reg, State.setReg, Vector.getElem_set, Fin.ext_iff, eq_comm]

@[simp] theorem State.regs_setReg (s : State) (r : Reg) (v : Byte) :
    (s.setReg r v).regs = s.regs.set r.val v := rfl

theorem State.sp_eq (s : State) : s.sp = s.reg spIndex := rfl

@[simp] theorem State.setSp_eq (s : State) (v : Byte) : s.setSp v = s.setReg spIndex v := rfl

@[simp] theorem State.sp_setReg (s : State) (r : Reg) (v : Byte) :
    (s.setReg r v).sp = if spIndex = r then v else s.sp := State.reg_setReg s r spIndex v

@[simp] theorem State.memRead_setReg (s : State) (r : Reg) (v a : Byte) : (s.setReg r v).memRead a = s.memRead a := rfl

/-- Two states agree on every field if they agree on every register and on the other seven fields. -/
theorem State.ext_regs (s t : State) (hr : ∀ r, s.reg r = t.reg r) (hp : s.pc = t.pc) (hf : s.fl = t.fl)
    (hu : s.run = t.run) (hc : s.fault = t.fault) (ho : s.out = t.out) (hm : s.mem = t.mem)
    (hg : s.config = t.config) : s = t := by
  cases s
  cases t
  simp only [State.mk.injEq]
  refine ⟨Vector.ext fun i hi => hr ⟨i, hi⟩, hp, hf, hu, hc, ho, hm, hg⟩

/-! ### setReg -/

@[simp] theorem State.setReg_pc (s : State) (r : Reg) (v : Byte) : (s.setReg r v).pc = s.pc := rfl
@[simp] theorem State.setReg_fl (s : State) (r : Reg) (v : Byte) : (s.setReg r v).fl = s.fl := rfl
@[simp] theorem State.setReg_run (s : State) (r : Reg) (v : Byte) : (s.setReg r v).run = s.run := rfl
@[simp] theorem State.setReg_fault (s : State) (r : Reg) (v : Byte) : (s.setReg r v).fault = s.fault := rfl
@[simp] theorem State.setReg_out (s : State) (r : Reg) (v : Byte) : (s.setReg r v).out = s.out := rfl
@[simp] theorem State.setReg_mem (s : State) (r : Reg) (v : Byte) : (s.setReg r v).mem = s.mem := rfl
@[simp] theorem State.setReg_config (s : State) (r : Reg) (v : Byte) : (s.setReg r v).config = s.config := rfl

/-! ### setPc -/

@[simp] theorem State.setPc_regs (s : State) (v : Byte) : (s.setPc v).regs = s.regs := rfl
@[simp] theorem State.setPc_pc (s : State) (v : Byte) : (s.setPc v).pc = v := rfl
@[simp] theorem State.setPc_fl (s : State) (v : Byte) : (s.setPc v).fl = s.fl := rfl
@[simp] theorem State.setPc_run (s : State) (v : Byte) : (s.setPc v).run = s.run := rfl
@[simp] theorem State.setPc_fault (s : State) (v : Byte) : (s.setPc v).fault = s.fault := rfl
@[simp] theorem State.setPc_out (s : State) (v : Byte) : (s.setPc v).out = s.out := rfl
@[simp] theorem State.setPc_mem (s : State) (v : Byte) : (s.setPc v).mem = s.mem := rfl
@[simp] theorem State.setPc_config (s : State) (v : Byte) : (s.setPc v).config = s.config := rfl
@[simp] theorem State.setPc_reg (s : State) (v : Byte) (k : Reg) : (s.setPc v).reg k = s.reg k := rfl
@[simp] theorem State.setPc_sp (s : State) (v : Byte) : (s.setPc v).sp = s.sp := rfl
@[simp] theorem State.setPc_memRead (s : State) (v : Byte) (a : Byte) : (s.setPc v).memRead a = s.memRead a := rfl

/-! ### setFl -/

@[simp] theorem State.setFl_regs (s : State) (f : Flags) : (s.setFl f).regs = s.regs := rfl
@[simp] theorem State.setFl_pc (s : State) (f : Flags) : (s.setFl f).pc = s.pc := rfl
@[simp] theorem State.setFl_fl (s : State) (f : Flags) : (s.setFl f).fl = f := rfl
@[simp] theorem State.setFl_run (s : State) (f : Flags) : (s.setFl f).run = s.run := rfl
@[simp] theorem State.setFl_fault (s : State) (f : Flags) : (s.setFl f).fault = s.fault := rfl
@[simp] theorem State.setFl_out (s : State) (f : Flags) : (s.setFl f).out = s.out := rfl
@[simp] theorem State.setFl_mem (s : State) (f : Flags) : (s.setFl f).mem = s.mem := rfl
@[simp] theorem State.setFl_config (s : State) (f : Flags) : (s.setFl f).config = s.config := rfl
@[simp] theorem State.setFl_reg (s : State) (f : Flags) (k : Reg) : (s.setFl f).reg k = s.reg k := rfl
@[simp] theorem State.setFl_sp (s : State) (f : Flags) : (s.setFl f).sp = s.sp := rfl
@[simp] theorem State.setFl_memRead (s : State) (f : Flags) (a : Byte) : (s.setFl f).memRead a = s.memRead a := rfl

/-! ### emit -/

@[simp] theorem State.emit_regs (s : State) (v : Byte) : (s.emit v).regs = s.regs := rfl
@[simp] theorem State.emit_pc (s : State) (v : Byte) : (s.emit v).pc = s.pc := rfl
@[simp] theorem State.emit_fl (s : State) (v : Byte) : (s.emit v).fl = s.fl := rfl
@[simp] theorem State.emit_run (s : State) (v : Byte) : (s.emit v).run = s.run := rfl
@[simp] theorem State.emit_fault (s : State) (v : Byte) : (s.emit v).fault = s.fault := rfl
@[simp] theorem State.emit_out (s : State) (v : Byte) : (s.emit v).out = s.out ++ [v] := rfl
@[simp] theorem State.emit_mem (s : State) (v : Byte) : (s.emit v).mem = s.mem := rfl
@[simp] theorem State.emit_config (s : State) (v : Byte) : (s.emit v).config = s.config := rfl
@[simp] theorem State.emit_reg (s : State) (v : Byte) (k : Reg) : (s.emit v).reg k = s.reg k := rfl
@[simp] theorem State.emit_sp (s : State) (v : Byte) : (s.emit v).sp = s.sp := rfl
@[simp] theorem State.emit_memRead (s : State) (v : Byte) (a : Byte) : (s.emit v).memRead a = s.memRead a := rfl

/-! ### halt -/

@[simp] theorem State.halt_regs (s : State) : s.halt.regs = s.regs := rfl
@[simp] theorem State.halt_pc (s : State) : s.halt.pc = s.pc := rfl
@[simp] theorem State.halt_fl (s : State) : s.halt.fl = s.fl := rfl
@[simp] theorem State.halt_run (s : State) : s.halt.run = .halted := rfl
@[simp] theorem State.halt_fault (s : State) : s.halt.fault = s.fault := rfl
@[simp] theorem State.halt_out (s : State) : s.halt.out = s.out := rfl
@[simp] theorem State.halt_mem (s : State) : s.halt.mem = s.mem := rfl
@[simp] theorem State.halt_config (s : State) : s.halt.config = s.config := rfl
@[simp] theorem State.halt_reg (s : State) (k : Reg) : s.halt.reg k = s.reg k := rfl
@[simp] theorem State.halt_sp (s : State) : s.halt.sp = s.sp := rfl
@[simp] theorem State.halt_memRead (s : State) (a : Byte) : s.halt.memRead a = s.memRead a := rfl

/-! ### memWrite -/

@[simp] theorem State.memWrite_regs (s : State) (addr v : Byte) : (s.memWrite addr v).regs = s.regs := rfl
@[simp] theorem State.memWrite_pc (s : State) (addr v : Byte) : (s.memWrite addr v).pc = s.pc := rfl
@[simp] theorem State.memWrite_fl (s : State) (addr v : Byte) : (s.memWrite addr v).fl = s.fl := rfl
@[simp] theorem State.memWrite_run (s : State) (addr v : Byte) : (s.memWrite addr v).run = s.run := rfl
@[simp] theorem State.memWrite_fault (s : State) (addr v : Byte) : (s.memWrite addr v).fault = s.fault := rfl
@[simp] theorem State.memWrite_out (s : State) (addr v : Byte) : (s.memWrite addr v).out = s.out := rfl
@[simp] theorem State.memWrite_mem (s : State) (addr v : Byte) : (s.memWrite addr v).mem = s.mem.write addr.toNat v := rfl
@[simp] theorem State.memWrite_config (s : State) (addr v : Byte) : (s.memWrite addr v).config = s.config := rfl
@[simp] theorem State.memWrite_reg (s : State) (addr v : Byte) (k : Reg) : (s.memWrite addr v).reg k = s.reg k := rfl
@[simp] theorem State.memWrite_sp (s : State) (addr v : Byte) : (s.memWrite addr v).sp = s.sp := rfl

/-! ### advance -/

@[simp] theorem State.advance_regs (s : State) (n : Nat) : (s.advance n).regs = s.regs := rfl
@[simp] theorem State.advance_pc (s : State) (n : Nat) : (s.advance n).pc = s.pcPlus (n + 1) := rfl
@[simp] theorem State.advance_fl (s : State) (n : Nat) : (s.advance n).fl = s.fl := rfl
@[simp] theorem State.advance_run (s : State) (n : Nat) : (s.advance n).run = s.run := rfl
@[simp] theorem State.advance_fault (s : State) (n : Nat) : (s.advance n).fault = s.fault := rfl
@[simp] theorem State.advance_out (s : State) (n : Nat) : (s.advance n).out = s.out := rfl
@[simp] theorem State.advance_mem (s : State) (n : Nat) : (s.advance n).mem = s.mem := rfl
@[simp] theorem State.advance_config (s : State) (n : Nat) : (s.advance n).config = s.config := rfl
@[simp] theorem State.advance_reg (s : State) (n : Nat) (k : Reg) : (s.advance n).reg k = s.reg k := rfl
@[simp] theorem State.advance_sp (s : State) (n : Nat) : (s.advance n).sp = s.sp := rfl
@[simp] theorem State.advance_memRead (s : State) (n : Nat) (a : Byte) : (s.advance n).memRead a = s.memRead a := rfl

/-! ### The PC arithmetic -/

@[simp] theorem State.pcPlus_toNat (s : State) (n : Nat) : (s.pcPlus n).toNat = (s.pc.toNat + n) % 256 := rfl

theorem State.pcPlus_congr (s t : State) (n : Nat) (h : t.pc = s.pc) : t.pcPlus n = s.pcPlus n := by
  simp only [State.pcPlus, h]

/-! ### Taking a fault -/

theorem raise_eq (c : FaultCause) (s : State) : raise c s = .next { s with run := .halted, fault := some c } := rfl

end Sys2Proof.Machine
end

