-- ==== Sys2Proof/Laws/Flags.lean ====
section
/-! SUPPORT. The flag computation, flag by flag. -/

namespace Sys2Proof.Machine

/-- The comparison sets exactly the flag of the order that holds. -/
theorem compareFlags_cases (x y : Byte) :
    (x.toNat > y.toNat ∧ compareFlags x y = 0b010) ∨ (x.toNat < y.toNat ∧ compareFlags x y = 0b100) ∨
    (x.toNat = y.toNat ∧ compareFlags x y = 0b001) := by
  unfold compareFlags
  by_cases hg : x.toNat > y.toNat
  · exact .inl ⟨hg, if_pos hg⟩
  · by_cases hl : x.toNat < y.toNat
    · exact .inr (.inl ⟨hl, (if_neg hg).trans (if_pos hl)⟩)
    · exact .inr (.inr ⟨by omega, (if_neg hg).trans (if_neg hl)⟩)

@[simp] theorem flagE_compareFlags (x y : Byte) : flagE (compareFlags x y) = decide (x.toNat = y.toNat) := by
  obtain ⟨h, e⟩ | ⟨h, e⟩ | ⟨h, e⟩ := compareFlags_cases x y <;> simp [e, flagE] <;> omega

@[simp] theorem flagG_compareFlags (x y : Byte) : flagG (compareFlags x y) = decide (x.toNat > y.toNat) := by
  obtain ⟨h, e⟩ | ⟨h, e⟩ | ⟨h, e⟩ := compareFlags_cases x y <;> simp [e, flagG] <;> omega

@[simp] theorem flagL_compareFlags (x y : Byte) : flagL (compareFlags x y) = decide (x.toNat < y.toNat) := by
  obtain ⟨h, e⟩ | ⟨h, e⟩ | ⟨h, e⟩ := compareFlags_cases x y <;> simp [e, flagL] <;> omega

@[simp] theorem flagE_combineFlags (b : Bool) (old r : Flags) :
    flagE (combineFlags b old r) = (b && flagE old || flagE r) := by
  cases b <;> simp [combineFlags, flagE]

@[simp] theorem flagG_combineFlags (b : Bool) (old r : Flags) :
    flagG (combineFlags b old r) = (b && flagG old || flagG r) := by
  cases b <;> simp [combineFlags, flagG]

@[simp] theorem flagL_combineFlags (b : Bool) (old r : Flags) :
    flagL (combineFlags b old r) = (b && flagL old || flagL r) := by
  cases b <;> simp [combineFlags, flagL]

end Sys2Proof.Machine
end

