-- ==== Sys2Proof/Laws/Memory.lean ====
section
/-! SUPPORT. Memory: what a lookup finds after an insertion, and that every memory operation keeps the canonical form. -/

namespace Sys2Proof.Machine

/-- A larger bound from below is a stronger demand. -/
theorem Memory.wfFrom_mono {lo lo' : Nat} (h : lo' ≤ lo) {m : Memory} (hm : Memory.wfFrom lo m = true) :
    Memory.wfFrom lo' m = true := by
  cases m with
  | nil => rfl
  | cons c rest =>
    obtain ⟨k, v⟩ := c
    simp only [Memory.wfFrom, Bool.and_eq_true, decide_eq_true_eq] at hm ⊢
    exact ⟨⟨⟨by omega, hm.1.1.2⟩, hm.1.2⟩, hm.2⟩

/-- Below its lower bound a canonical list has nothing listed. -/
theorem Memory.lookup_below {lo a : Nat} (h : a < lo) {m : Memory} (hm : Memory.wfFrom lo m = true) :
    Memory.lookup a m = memReset := by
  induction m generalizing lo with
  | nil => rfl
  | cons c rest ih =>
    obtain ⟨k, v⟩ := c
    simp only [Memory.wfFrom, Bool.and_eq_true, decide_eq_true_eq] at hm
    have hne : k ≠ a := by omega
    simp only [Memory.lookup, hne, if_false]
    exact ih (lo := k + 1) (by omega) hm.2

/-- An insertion leaves every other address alone, canonical or not. -/
theorem Memory.lookup_insert_of_ne {a b : Nat} (h : b ≠ a) (v : Byte) (m : Memory) :
    Memory.lookup b (Memory.insert a v m) = Memory.lookup b m := by
  have h' : a ≠ b := fun e => h e.symm
  induction m with
  | nil => by_cases hv : v = memReset <;> simp [Memory.insert, Memory.lookup, hv, h']
  | cons c rest ih =>
    obtain ⟨k, w⟩ := c
    rw [Memory.insert]
    split
    · split <;> simp [Memory.lookup, h']
    · split
      · rename_i hk
        subst hk
        split <;> simp [Memory.lookup, h']
      · simp [Memory.lookup, ih]

/-- In a canonical list an insertion sets the address it names. -/
theorem Memory.lookup_insert_self {lo : Nat} (a : Nat) (v : Byte) {m : Memory} (hm : Memory.wfFrom lo m = true) :
    Memory.lookup a (Memory.insert a v m) = v := by
  induction m generalizing lo with
  | nil => by_cases hv : v = memReset <;> simp [Memory.insert, Memory.lookup, hv]
  | cons c rest ih =>
    obtain ⟨k, w⟩ := c
    simp only [Memory.wfFrom, Bool.and_eq_true, decide_eq_true_eq] at hm
    rw [Memory.insert]
    split
    · rename_i hlt
      split
      · rename_i hv
        rw [hv, Memory.lookup, if_neg (by omega)]
        exact Memory.lookup_below (by omega) hm.2
      · simp [Memory.lookup]
    · split
      · rename_i hk
        subst hk
        split
        · rename_i hv
          rw [hv]
          exact Memory.lookup_below (Nat.lt_succ_self _) hm.2
        · simp [Memory.lookup]
      · rename_i hk
        rw [Memory.lookup, if_neg (fun e => hk e.symm)]
        exact ih hm.2

/-- An insertion inside the address space keeps the canonical form. -/
theorem Memory.wfFrom_insert {lo a : Nat} (hlo : lo ≤ a) (ha : a < memSize) (v : Byte) {m : Memory}
    (hm : Memory.wfFrom lo m = true) : Memory.wfFrom lo (Memory.insert a v m) = true := by
  induction m generalizing lo with
  | nil => by_cases hv : v = memReset <;> simp [Memory.insert, Memory.wfFrom, hv, hlo, ha]
  | cons c rest ih =>
    obtain ⟨k, w⟩ := c
    have hm' := hm
    simp only [Memory.wfFrom, Bool.and_eq_true, decide_eq_true_eq] at hm
    obtain ⟨⟨⟨h1, h2⟩, h3⟩, h4⟩ := hm
    rw [Memory.insert]
    split
    · rename_i hlt
      split
      · exact hm'
      · rename_i hv
        simp only [Memory.wfFrom, Bool.and_eq_true, decide_eq_true_eq]
        exact ⟨⟨⟨hlo, ha⟩, hv⟩, ⟨⟨by omega, h2⟩, h3⟩, h4⟩
    · split
      · rename_i hk
        subst hk
        split
        · exact Memory.wfFrom_mono (by omega) h4
        · rename_i hv
          simp only [Memory.wfFrom, Bool.and_eq_true, decide_eq_true_eq]
          exact ⟨⟨⟨hlo, ha⟩, hv⟩, h4⟩
      · simp only [Memory.wfFrom, Bool.and_eq_true, decide_eq_true_eq]
        exact ⟨⟨⟨h1, h2⟩, h3⟩, ih (by omega) h4⟩

/-- A write keeps the canonical form, at any address. -/
theorem Memory.wf_write {m : Memory} (hm : m.wf = true) (addr : Nat) (v : Byte) : (m.write addr v).wf = true :=
  Memory.wfFrom_insert (Nat.zero_le _) (Nat.mod_lt _ (by decide)) v hm

/-- So does a run of writes. -/
theorem Memory.wf_writeList {m : Memory} (hm : m.wf = true) (addr : Nat) (vs : List Byte) :
    (m.writeList addr vs).wf = true := by
  induction vs generalizing m addr with
  | nil => exact hm
  | cons v rest ih => exact ih (Memory.wf_write hm addr v) (addr + 1)

/-- The empty memory, every cell at `memReset`, is canonical. -/
theorem Memory.wf_nil : Memory.wf [] = true := rfl

/-- The memory of the state after reset is canonical. -/
theorem State.reset_mem_wf : State.reset.mem.wf = true := rfl

/-- An address is a byte: reading it needs no reduction. -/
theorem State.memRead_eq (s : State) (a : Byte) : s.memRead a = Memory.lookup a.toNat s.mem := by
  simp only [State.memRead, Memory.read, memSize, Nat.mod_eq_of_lt a.isLt]

/-- Every operation that writes memory keeps it canonical. -/
theorem State.memWrite_wf {s : State} (h : s.mem.wf = true) (addr v : Byte) : (s.memWrite addr v).mem.wf = true :=
  Memory.wf_write h addr.toNat v

theorem State.load_wf {s : State} (h : s.mem.wf = true) (image : List Byte) : (s.load image).mem.wf = true :=
  Memory.wf_writeList h loadBase image

theorem State.placeAtPc_wf {s : State} (h : s.mem.wf = true) (bytes : List Byte) :
    (s.placeAtPc bytes).mem.wf = true :=
  Memory.wf_writeList h s.pc.toNat bytes

end Sys2Proof.Machine
end

