-- ==== Sys2Proof/Laws/Ops.lean ====
section
/-! SUPPORT. The shared operations, each with the lemma that says what it does: operand validation, the stack
micro-operations, the branch, the ALU write, and the step. -/

namespace Sys2Proof.Machine

/-! ### Operands -/

@[simp] theorem regIndex?_regByte (r : Reg) : regIndex? (regByte r) = some r := by
  revert r
  decide

theorem regIndex?_eq_some {b : Byte} {r : Reg} (h : regIndex? b = some r) : b = regByte r := by
  unfold regIndex? at h
  split at h
  · obtain rfl := Option.some.inj h
    simp [regByte]
  · exact absurd h (by simp)

theorem regIndex?_eq_none_iff (b : Byte) : regIndex? b = none ↔ isRegisterByte b = false := by
  unfold regIndex? isRegisterByte
  split <;> simp_all

@[simp] theorem isRegisterByte_regByte (r : Reg) : isRegisterByte (regByte r) = true := by
  revert r
  decide

theorem exists_regByte_of_isRegisterByte {b : Byte} (h : isRegisterByte b = true) : ∃ r : Reg, b = regByte r := by
  cases hr : regIndex? b with
  | none => rw [(regIndex?_eq_none_iff b).mp hr] at h; cases h
  | some r => exact ⟨r, regIndex?_eq_some hr⟩

@[simp] theorem withReg_regByte (r : Reg) (s : State) (k : Reg → Result) : withReg (regByte r) s k = k r := by
  simp only [withReg, regIndex?_regByte]

theorem withReg_invalid {b : Byte} (h : isRegisterByte b = false) (s : State) (k : Reg → Result) :
    withReg b s k = raise .invalidRegister s := by
  simp only [withReg, (regIndex?_eq_none_iff b).mpr h]

/-- What validating one operand can do: raise, or go on with the register the byte names. -/
theorem withReg_cases (b : Byte) (s : State) (k : Reg → Result) :
    (isRegisterByte b = false ∧ withReg b s k = raise .invalidRegister s) ∨
    (∃ r, b = regByte r ∧ withReg b s k = k r) := by
  cases h : isRegisterByte b with
  | false => exact .inl ⟨rfl, withReg_invalid h s k⟩
  | true =>
    obtain ⟨r, rfl⟩ := exists_regByte_of_isRegisterByte h
    exact .inr ⟨r, rfl, withReg_regByte r s k⟩

@[simp] theorem withRegs_regByte (a b : Reg) (s : State) (k : Reg → Reg → Result) :
    withRegs (regByte a) (regByte b) s k = k a b := by
  simp only [withRegs, withReg_regByte]

/-- What validating two operands can do: raise once, or go on with both registers. -/
theorem withRegs_cases (a b : Byte) (s : State) (k : Reg → Reg → Result) :
    ((isRegisterByte a = false ∨ isRegisterByte b = false) ∧ withRegs a b s k = raise .invalidRegister s) ∨
    (∃ x y, a = regByte x ∧ b = regByte y ∧ withRegs a b s k = k x y) := by
  unfold withRegs
  obtain ⟨ha, h⟩ | ⟨x, rfl, h⟩ := withReg_cases a s fun x => withReg b s fun y => k x y
  · exact .inl ⟨.inl ha, h⟩
  · obtain ⟨hb, h'⟩ | ⟨y, rfl, h'⟩ := withReg_cases b s fun y => k x y
    · exact .inl ⟨.inr hb, h.trans h'⟩
    · exact .inr ⟨x, y, rfl, rfl, h.trans h'⟩

/-- Inversion: an instruction with one operand that answers a next state raised, or went on. -/
theorem withReg_next {b : Byte} {s t : State} {k : Reg → Result} (h : withReg b s k = .next t) :
    (isRegisterByte b = false ∧ t = { s with run := .halted, fault := some .invalidRegister }) ∨
    (∃ r, b = regByte r ∧ k r = .next t) := by
  obtain ⟨hb, h'⟩ | ⟨r, hr, h'⟩ := withReg_cases b s k
  · rw [h'] at h
    cases h
    exact .inl ⟨hb, rfl⟩
  · exact .inr ⟨r, hr, h'.symm.trans h⟩

/-- Inversion: an instruction with two operands that answers a next state raised, or went on. -/
theorem withRegs_next {a b : Byte} {s t : State} {k : Reg → Reg → Result} (h : withRegs a b s k = .next t) :
    ((isRegisterByte a = false ∨ isRegisterByte b = false) ∧
      t = { s with run := .halted, fault := some .invalidRegister }) ∨
    (∃ x y, a = regByte x ∧ b = regByte y ∧ k x y = .next t) := by
  obtain ⟨hb, h'⟩ | ⟨x, y, hx, hy, h'⟩ := withRegs_cases a b s k
  · rw [h'] at h
    cases h
    exact .inl ⟨hb, rfl⟩
  · exact .inr ⟨x, y, hx, hy, h'.symm.trans h⟩

/-! ### The stack micro-operations -/

/-- A push is a decrement of `sp` followed by one write, whose value is computed in between. -/
theorem State.push_eq (s : State) (v : State → Byte) :
    s.push v = (s.setReg spIndex (s.sp - 1)).memWrite (s.sp - 1) (v (s.setReg spIndex (s.sp - 1))) := by
  have h : (s.setReg spIndex (s.sp - 1)).sp = s.sp - 1 := by simp
  simp only [State.push, State.setSp_eq, h]

theorem State.push_memRead_of_ne (s : State) (v : State → Byte) {a : Byte} (h : a ≠ s.sp - 1) :
    (s.push v).memRead a = s.memRead a := by
  rw [State.push_eq, State.memRead_eq, State.memWrite_mem, State.setReg_mem, State.memRead_eq]
  refine Memory.lookup_insert_of_ne (fun e => h ?_) _ _
  rw [memSize, Nat.mod_eq_of_lt (s.sp - 1).isLt] at e
  exact BitVec.eq_of_toNat_eq e

theorem State.push_memRead_self {s : State} (hm : s.mem.wf = true) (v : State → Byte) :
    (s.push v).memRead (s.sp - 1) = v (s.setReg spIndex (s.sp - 1)) := by
  rw [State.push_eq, State.memRead_eq, State.memWrite_mem, State.setReg_mem, Memory.write, memSize,
    Nat.mod_eq_of_lt (s.sp - 1).isLt]
  exact Memory.lookup_insert_self _ _ hm

theorem State.push_wf {s : State} (hm : s.mem.wf = true) (v : State → Byte) : (s.push v).mem.wf = true := by
  rw [State.push_eq]
  exact State.memWrite_wf (by exact hm) _ _

/-- A pop hands the byte at `sp` to its receiver and then increments `sp` as the receiver left it. -/
theorem State.pop_eq (s : State) (receive : Byte → State → State) :
    s.pop receive =
      (receive (s.memRead s.sp) s).setReg spIndex ((receive (s.memRead s.sp) s).sp + 1) := rfl

/-! ### The step -/

/-- Everything a step can do: stay halted, raise for an unrecognised opcode, or execute what it fetched. -/
theorem step_cases {s t : State} (h : step s = .next t) :
    (s.run = .halted ∧ t = s) ∨
    (s.run = .running ∧ ∃ e, s.fetchDecode = .error e ∧ t = { s with run := .halted, fault := some (causeOf e) }) ∨
    (s.run = .running ∧ ∃ i, s.fetchDecode = .ok i ∧ exec i s = .next t) := by
  unfold step at h
  split at h
  · rename_i hr
    cases h
    exact .inl ⟨hr, rfl⟩
  · rename_i hr
    split at h
    · rename_i i hi
      exact .inr (.inr ⟨hr, i, hi, h⟩)
    · rename_i e he
      cases h
      exact .inr (.inl ⟨hr, e, he, rfl⟩)

/-- The fetch reads the three cells at `pc`, `pc + 1` and `pc + 2`, modulo 256 (rule R112). -/
theorem State.fetchDecode_eq (s : State) :
    s.fetchDecode = decode (s.memRead s.pc) (s.memRead (s.pc + 1)) (s.memRead (s.pc + 2)) := by
  simp only [State.fetchDecode, State.fetchByte, State.memRead, Memory.read, memSize, BitVec.toNat_add]
  simp

/-! ### The meanings, on legal operands and on others -/

@[simp] theorem execLdi_regByte (r : Reg) (v : Byte) (s : State) :
    execLdi (regByte r) v s = .next ((s.setReg r v).advance 2) := withReg_regByte r s _

@[simp] theorem execPrn_regByte (r : Reg) (s : State) :
    execPrn (regByte r) s = .next ((s.emit (s.reg r)).advance 1) := withReg_regByte r s _

@[simp] theorem execPush_regByte (r : Reg) (s : State) :
    execPush (regByte r) s = .next ((s.push fun s1 => s1.reg r).advance 1) := withReg_regByte r s _

@[simp] theorem execPop_regByte (r : Reg) (s : State) :
    execPop (regByte r) s = .next ((s.pop fun v s1 => s1.setReg r v).advance 1) := withReg_regByte r s _

@[simp] theorem execJmp_regByte (r : Reg) (s : State) : execJmp (regByte r) s = branch true r s :=
  withReg_regByte r s _

@[simp] theorem execJeq_regByte (r : Reg) (s : State) : execJeq (regByte r) s = branch (flagE s.fl) r s :=
  withReg_regByte r s _

@[simp] theorem execJne_regByte (r : Reg) (s : State) : execJne (regByte r) s = branch (!flagE s.fl) r s :=
  withReg_regByte r s _

@[simp] theorem execCall_regByte (r : Reg) (s : State) :
    execCall (regByte r) s =
      .next ((s.push fun s1 => s1.pcPlus 2).setPc ((s.push fun s1 => s1.pcPlus 2).reg r)) := withReg_regByte r s _

@[simp] theorem branch_true (r : Reg) (s : State) : branch true r s = .next (s.setPc (s.reg r)) := rfl

@[simp] theorem branch_false (r : Reg) (s : State) : branch false r s = .next (s.advance 1) := rfl

@[simp] theorem execAdd_regByte (a b : Reg) (s : State) :
    execAdd (regByte a) (regByte b) s =
      .next ((s.setReg a (BitVec.ofNat 8 ((s.reg a).toNat + (s.reg b).toNat))).advance 2) := withRegs_regByte a b s _

@[simp] theorem execSub_regByte (a b : Reg) (s : State) :
    execSub (regByte a) (regByte b) s =
      .next ((s.setReg a (BitVec.ofInt 8 ((s.reg a).toNat - (s.reg b).toNat : Int))).advance 2) :=
  withRegs_regByte a b s _

@[simp] theorem execMul_regByte (a b : Reg) (s : State) :
    execMul (regByte a) (regByte b) s =
      .next ((s.setReg a (BitVec.ofNat 8 ((s.reg a).toNat * (s.reg b).toNat))).advance 2) := withRegs_regByte a b s _

theorem execDiv_regByte (a b : Reg) (s : State) :
    execDiv (regByte a) (regByte b) s =
      if s.reg b = 0 then raise .divideByZero s
      else .next ((s.setReg a (BitVec.ofNat 8 ((s.reg a).toNat / (s.reg b).toNat))).advance 2) :=
  withRegs_regByte a b s _

@[simp] theorem execOr_regByte (a b : Reg) (s : State) :
    execOr (regByte a) (regByte b) s = .next ((s.setReg a (s.reg a ||| s.reg b)).advance 2) := withRegs_regByte a b s _

@[simp] theorem execCmp_regByte (a b : Reg) (s : State) :
    execCmp (regByte a) (regByte b) s =
      .next ((s.setFl
        (combineFlags s.config.flagsSticky s.fl (compareFlags (s.reg a) (s.reg b)))).advance 2) :=
  withRegs_regByte a b s _

end Sys2Proof.Machine
end

