-- ==== Sys2Proof/Laws/Frames.lean ====
section
/-! SUPPORT. A change of state that commutes with raising a fault commutes with operand validation: what the statements about
exchanging a register, the flags or memory beforehand rest on. -/

namespace Sys2Proof.Machine

@[simp] theorem mapNext_next (f : State → State) (s : State) : mapNext f (.next s) = .next (f s) := rfl

theorem withReg_mapNext (f : State → State) (b : Byte) (s : State) (k k' : Reg → Result)
    (hf : raise .invalidRegister (f s) = mapNext f (raise .invalidRegister s))
    (hk : ∀ r, b = regByte r → k' r = mapNext f (k r)) : withReg b (f s) k' = mapNext f (withReg b s k) := by
  cases h : isRegisterByte b with
  | false => rw [withReg_invalid h, withReg_invalid h, hf]
  | true =>
    obtain ⟨r, rfl⟩ := exists_regByte_of_isRegisterByte h
    rw [withReg_regByte, withReg_regByte, hk r rfl]

theorem withRegs_mapNext (f : State → State) (a b : Byte) (s : State) (k k' : Reg → Reg → Result)
    (hf : raise .invalidRegister (f s) = mapNext f (raise .invalidRegister s))
    (hk : ∀ x y, a = regByte x → b = regByte y → k' x y = mapNext f (k x y)) :
    withRegs a b (f s) k' = mapNext f (withRegs a b s k) :=
  withReg_mapNext f a s _ _ hf fun x hx => withReg_mapNext f b s _ _ hf fun y hy => hk x y hx hy

end Sys2Proof.Machine
end

