-- ==== Sys2Proof/Laws/PerInstr.lean ====
section
/-! SUPPORT. Statements made per instruction. `EncodedLength`: an instruction is as many bytes long as bits 7:6 of its
opcode byte say, plus 1, and its register operands are among its operand bytes (rules R80, R86(a), R88). -/

namespace Sys2Proof.Laws.EncodedLength

/-- Rules R80 and R88 for one instruction. -/
def Statement (i : Instr) : Prop :=
  (encode i).length = operandCount (opcodeByte i) + 1 ∧ i.registerOperands <+: operandBytes i

/-- The case split, once: each opcode byte's top bits count the operand bytes listed for it. -/
theorem of_cases (i : Instr) : Statement i := by
  refine ⟨?_, ?_⟩
  · cases i <;> simp [encode, operandBytes, opcodeByte, operandCount]
  · cases i <;> simp [Instr.registerOperands, operandBytes]

theorem ldi (r i : Byte) : Statement (.ldi r i) := of_cases _
theorem prn (r : Byte) : Statement (.prn r) := of_cases _
theorem add (a b : Byte) : Statement (.add a b) := of_cases _
theorem sub (a b : Byte) : Statement (.sub a b) := of_cases _
theorem mul (a b : Byte) : Statement (.mul a b) := of_cases _
theorem div (a b : Byte) : Statement (.div a b) := of_cases _
theorem cmp (a b : Byte) : Statement (.cmp a b) := of_cases _
theorem or (a b : Byte) : Statement (.or a b) := of_cases _
theorem push (r : Byte) : Statement (.push r) := of_cases _
theorem pop (r : Byte) : Statement (.pop r) := of_cases _
theorem jmp (r : Byte) : Statement (.jmp r) := of_cases _
theorem jeq (r : Byte) : Statement (.jeq r) := of_cases _
theorem jne (r : Byte) : Statement (.jne r) := of_cases _
theorem call (r : Byte) : Statement (.call r) := of_cases _
theorem ret : Statement .ret := of_cases _
theorem hlt : Statement .hlt := of_cases _

end Sys2Proof.Laws.EncodedLength
end

