-- ==== Sys2Proof/Tests/Slice0.lean ====
section
/-! SUPPORT. The model's own tests: the WellFormed smoke, decoding of words written out from the spec's encodings, one or two
steps per instruction with results from spec/95_test_vectors.md, and a witness for every statement that has hypotheses. -/

namespace Sys2Proof.Tests

open Sys2Proof.Machine

/-! ### WellFormed: an ill-formed term for each register position, refused -/

theorem test_wellFormed_accepts_the_largest_register : (Instr.add 7 7).wellFormed = true := by decide
theorem test_wellFormed_refuses_ldi_operand : (Instr.ldi 8 0).wellFormed = false := by decide
theorem test_wellFormed_accepts_any_immediate : (Instr.ldi 0 0xFF).wellFormed = true := by decide
theorem test_wellFormed_refuses_first_operand : (Instr.add 8 0).wellFormed = false := by decide
theorem test_wellFormed_refuses_second_operand : (Instr.cmp 0 0xFF).wellFormed = false := by decide
theorem test_wellFormed_refuses_one_operand_forms :
    ([Instr.prn 8, .push 8, .pop 9, .jmp 0x0A, .jeq 9, .jne 0x10, .call 8].all fun i => !i.wellFormed) = true := by decide
theorem test_wellFormed_refuses_alu_operands :
    ([Instr.sub 8 0, .mul 0 8, .div 0 9, .or 0x80 0].all fun i => !i.wellFormed) = true := by decide

/-! ### Decoding: words from the encodings of the instruction rules, bit by bit -/

theorem test_decode_ldi : decode 0b10000010 0b00000000 0b00001000 = .ok (.ldi 0 8) := by decide
theorem test_decode_prn : decode 0b01000111 0b00000011 0xFF = .ok (.prn 3) := by decide
theorem test_decode_add : decode 0b10100000 0b00000101 0b00000001 = .ok (.add 5 1) := by decide
theorem test_decode_sub : decode 0b10100001 0b00000001 0b00000010 = .ok (.sub 1 2) := by decide
theorem test_decode_mul : decode 0b10100010 0b00000000 0b00000001 = .ok (.mul 0 1) := by decide
theorem test_decode_div : decode 0b10100011 0b00000110 0b00000001 = .ok (.div 6 1) := by decide
theorem test_decode_cmp : decode 0b10100111 0b00000001 0b00000011 = .ok (.cmp 1 3) := by decide
theorem test_decode_or : decode 0b10101010 0b00000000 0b00000001 = .ok (.or 0 1) := by decide
theorem test_decode_push : decode 0b01000101 0b00000001 0 = .ok (.push 1) := by decide
theorem test_decode_pop : decode 0b01000110 0b00000001 0 = .ok (.pop 1) := by decide
theorem test_decode_jmp : decode 0b01010100 0b00000100 0 = .ok (.jmp 4) := by decide
theorem test_decode_jeq : decode 0b01010101 0b00000011 0 = .ok (.jeq 3) := by decide
theorem test_decode_jne : decode 0b01010110 0b00000100 0 = .ok (.jne 4) := by decide
theorem test_decode_call : decode 0b01010000 0b00000001 0 = .ok (.call 1) := by decide
theorem test_decode_ret : decode 0b00010001 0x45 0x46 = .ok .ret := by decide
theorem test_decode_hlt : decode 0b00000001 0xFF 0xFF = .ok .hlt := by decide

/-- V-DEC-6, V-DEC-10 to 12: undefined with bit 5 clear. -/
theorem test_decode_unknown :
    ([0x00, 0xC1, 0x07, 0x41].map fun ir => decode ir 0 0) = List.replicate 4 (.error .unknownInstruction) := by decide

/-- V-DEC-7 to 9 and V-ALU-X4: undefined with bit 5 set. -/
theorem test_decode_unsupported :
    ([0xA4, 0x20, 0xFF, 0x65].map fun ir => decode ir 9 9) = List.replicate 4 (.error .unsupportedOperation) := by decide

/-- The opcode table's numbering: the second byte is bits 15..8, the third bits 23..16. -/
theorem test_decodeTableWord : decodeTableWord 24 0x010282 = some (.ldi 2 1) := by decide

/-- An operand byte beyond `nbits` is 0. -/
theorem test_decodeTableWord_short : decodeTableWord 8 0x010282 = some (.ldi 0 0) := by decide

theorem test_encode_add : encode (.add 5 1) = [0b10100000, 0b00000101, 0b00000001] := by decide

/-! ### Steps: `at'` builds a running state, `after` reads the result of one step -/

def at' (regs : Vector Byte 8) (pc : Byte) (fl : Flags) (mem : Memory) : State :=
  { State.reset with regs := regs, pc := pc, fl := fl, mem := mem }

def sticky (s : State) : State := { s with config := { flagsSticky := true } }

def after {α : Type} (s : State) (f : State → α) : Option α :=
  match step s with
  | .next t => some (f t)
  | .fault _ => none
  | .refused _ => none

/-- V-LDI-2. -/
theorem test_ldi : after (at' #v[0, 0, 0, 0, 0, 0, 0, 0xF4] 9 0 [(9, 0x82), (10, 3), (11, 0xFF)])
    (fun t => (t.reg 3, t.pc)) = some (0xFF, 0x0C) := by decide

/-- V-LDI-4. -/
theorem test_ldi_invalid : after (at' #v[0, 0, 0, 0, 0, 0, 0, 0xF4] 0 0 [(0, 0x82), (1, 8), (2, 1)])
    (fun t => (t.run, t.fault, t.pc)) = some (.halted, some .invalidRegister, 0) := by decide

/-- V-PRN-2. -/
theorem test_prn : after (at' #v[0, 0, 0, 0, 0, 0, 0, 0xF4] 0 0 [(0, 0x47), (1, 7)])
    (fun t => (t.out, t.pc)) = some ([244], 2) := by decide

/-- V-ADD-2. -/
theorem test_add_wraps : after (at' #v[0xC8, 0x64, 0, 0, 0, 0, 0, 0xF4] 0x10 0 [(0x10, 0xA0), (0x12, 1)])
    (fun t => (t.reg 0, t.reg 1, t.pc, t.fl)) = some (0x2C, 0x64, 0x13, 0) := by decide

/-- V-ADD-4: the same register twice. -/
theorem test_add_doubles : after (at' #v[0, 0, 0x90, 0, 0, 0, 0, 0xF4] 0x10 0 [(0x10, 0xA0), (0x11, 2), (0x12, 2)])
    (fun t => t.reg 2) = some 0x20 := by decide

/-- V-SUB-3. -/
theorem test_sub_wraps : after (at' #v[5, 7, 0, 0, 0, 0, 0, 0xF4] 0x10 0 [(0x10, 0xA1), (0x12, 1)])
    (fun t => (t.reg 0, t.reg 1)) = some (0xFE, 7) := by decide

/-- V-MUL-3. -/
theorem test_mul_wraps : after (at' #v[0xFF, 0xFF, 0, 0, 0, 0, 0, 0xF4] 0x10 0 [(0x10, 0xA2), (0x12, 1)])
    (fun t => t.reg 0) = some 1 := by decide

/-- V-DIV-1. -/
theorem test_div : after (at' #v[0x11, 5, 0, 0, 0, 0, 0, 0xF4] 0x10 0 [(0x10, 0xA3), (0x12, 1)])
    (fun t => (t.reg 0, t.pc)) = some (3, 0x13) := by decide

/-- V-DIV-7. -/
theorem test_div_by_zero : after (at' #v[0x0A, 0, 0, 0, 0, 0, 0, 0xF4] 0x10 0 [(0x10, 0xA3), (0x12, 1)])
    (fun t => (t.reg 0, t.pc, t.run, t.fault)) = some (0x0A, 0x10, .halted, some .divideByZero) := by decide

/-- V-OR-1. -/
theorem test_or : after (at' #v[0x2C, 0x64, 0, 0, 0, 0, 0, 0xF4] 0x10 0 [(0x10, 0xAA), (0x12, 1)])
    (fun t => t.reg 0) = some 0x6C := by decide

/-- V-CMP-4, both modes: a stale equal flag under a less-than result. -/
theorem test_cmp_modes :
    let s := at' #v[5, 6, 0, 0, 0, 0, 0, 0xF4] 0x10 0b001 [(0x10, 0xA7), (0x12, 1)]
    (after s (·.fl), after (sticky s) (·.fl)) = (some 0b100, some 0b101) := by decide

/-- V-CMP-6: unsigned. -/
theorem test_cmp_unsigned : after (at' #v[0xFF, 1, 0, 0, 0, 0, 0, 0xF4] 0x10 0 [(0x10, 0xA7), (0x12, 1)])
    (fun t => (t.fl, t.pc)) = some (0b010, 0x13) := by decide

/-- V-PUSH-2: the stack pointer wraps. -/
theorem test_push_wraps : after (at' #v[0xAB, 0, 0, 0, 0, 0, 0, 0] 0x20 0 [(0x20, 0x45)])
    (fun t => (t.sp, t.memRead 0xFF, t.pc)) = some (0xFF, 0xAB, 0x22) := by decide

/-- V-PUSH-3: `PUSH R7` stores the decremented pointer. -/
theorem test_push_r7 : after (at' #v[0, 0, 0, 0, 0, 0, 0, 0xF4] 0x20 0 [(0x20, 0x45), (0x21, 7)])
    (fun t => (t.sp, t.memRead 0xF3)) = some (0xF3, 0xF3) := by decide

/-- V-POP-1. -/
theorem test_pop : after (at' #v[0, 0, 0, 0, 0, 0, 0, 0xF2] 0x20 0 [(0x20, 0x46), (0x21, 1), (0xF2, 0x0C)])
    (fun t => (t.reg 1, t.sp, t.memRead 0xF2)) = some (0x0C, 0xF3, 0x0C) := by decide

/-- V-POP-3: `POP R7` ends with the popped byte plus 1. -/
theorem test_pop_r7 : after (at' #v[0, 0, 0, 0, 0, 0, 0, 0xF4] 0x20 0 [(0x20, 0x46), (0x21, 7), (0xF4, 0x20)])
    (·.sp) = some 0x21 := by decide

/-- V-JMP-1. -/
theorem test_jmp : after (at' #v[0, 0, 0, 0, 0x0F, 0, 0, 0xF4] 0x18 0 [(0x18, 0x54), (0x19, 4)])
    (·.pc) = some 0x0F := by decide

/-- V-JEQ-1 and V-JEQ-2. -/
theorem test_jeq :
    let m : Memory := [(0x12, 0x55), (0x13, 3)]
    (after (at' #v[0, 0, 0, 0x16, 0, 0, 0, 0xF4] 0x12 0b001 m) (·.pc),
      after (at' #v[0, 0, 0, 0x16, 0, 0, 0, 0xF4] 0x12 0b010 m) (·.pc)) = (some 0x16, some 0x14) := by decide

/-- V-JEQ-6: the operand of a JEQ at 255 is at 0, and the PC wraps. -/
theorem test_jeq_wraps : after (at' #v[0, 0, 0, 0, 0, 0, 0, 0xF4] 0xFF 0b100 [(0, 3), (0xFF, 0x55)])
    (fun t => (t.pc, t.fault)) = some (1, none) := by decide

/-- V-JNE-2 and V-JNE-3. -/
theorem test_jne :
    let m : Memory := [(0x18, 0x56), (0x19, 4)]
    (after (at' #v[0, 0, 0, 0, 0x0F, 0, 0, 0xF4] 0x18 0b001 m) (·.pc),
      after (at' #v[0, 0, 0, 0, 0x0F, 0, 0, 0xF4] 0x18 0b000 m) (·.pc)) = (some 0x1A, some 0x0F) := by decide

/-- V-CALL-2. -/
theorem test_call_wraps : after (at' #v[0, 0, 0, 0x40, 0, 0, 0, 0xF4] 0xFE 0 [(0xFE, 0x50), (0xFF, 3)])
    (fun t => (t.sp, t.memRead 0xF3, t.pc)) = some (0xF3, 0, 0x40) := by decide

/-- V-CALL-3: `CALL R7` jumps to the decremented pointer. -/
theorem test_call_r7 : after (at' #v[0, 0, 0, 0, 0, 0, 0, 0xF4] 0 0 [(0, 0x50), (1, 7)])
    (fun t => (t.sp, t.memRead 0xF3, t.pc)) = some (0xF3, 2, 0xF3) := by decide

/-- V-RET-2. -/
theorem test_ret_wraps : after (at' #v[0, 0, 0, 0, 0, 0, 0, 0xFF] 0x16 0 [(0x16, 0x11), (0xFF, 0x30)])
    (fun t => (t.pc, t.sp, t.run)) = some (0x30, 0, .running) := by decide

/-- V-HLT-2. -/
theorem test_hlt_wraps : after (at' #v[0, 0, 0, 0, 0, 0, 0, 0xF4] 0xFF 0 [(0xFF, 1)])
    (fun t => (t.run, t.fault, t.pc)) = some (.halted, none, 0) := by decide

/-- V-FLT-1: the step from reset with nothing loaded. -/
theorem test_reset_fetches_an_unknown_instruction : after State.reset (fun t => (t.run, t.fault, t.pc)) =
    some (.halted, some .unknownInstruction, 0) := by decide

/-- V-FLT-2. -/
theorem test_unsupported_operation : after (State.reset.load [0xA4, 0, 1]) (fun t => (t.fault, t.pc)) =
    some (some .unsupportedOperation, 0) := by decide

/-- V-DIV-9: operand validation comes before the division. -/
theorem test_invalid_operand_before_division :
    after (at' #v[0x0A, 0, 0, 0, 0, 0, 0, 0xF4] 0x10 0 [(0x10, 0xA3), (0x12, 9)]) (·.fault) =
    some (some .invalidRegister) := by decide

/-- V-ALU-X4: opcode recognition comes before operand validation. -/
theorem test_opcode_before_operands :
    after (at' #v[0, 0, 0, 0, 0, 0, 0, 0xF4] 0x10 0 [(0x10, 0x65), (0x11, 9), (0x12, 9)]) (·.fault) =
    some (some .unsupportedOperation) := by decide

/-- Rule R200's codes. -/
theorem test_fault_codes : [none, some FaultCause.unknownInstruction, some .unsupportedOperation, some .invalidRegister,
    some .divideByZero].map faultCode = [0, 1, 2, 3, 4] := by decide

/-- The loader's writes wrap at 255 (rule R63). -/
theorem test_load_wraps : Memory.writeList [(0, 9)] 255 [1, 2] = [(0, 2), (255, 1)] := by decide

/-! ### Witnesses: a state and operands that meet all hypotheses of a statement -/

theorem test_witness_OpcodeTableIsDecodedAsWritten : decode 0xAA 7 7 = .ok (.or 7 7) := by decide

theorem test_witness_DecodeOfEncodeIsTheInstruction : State.reset.mem.wf = true ∧
    ((at' State.reset.regs 0xFF 0 []).placeAtPc (encode (.ldi 7 9))).fetchDecode = .ok (.ldi 7 9) := by decide

theorem test_witness_EncodeOfDecodeIsTheWindow : decode 0x11 0xFF 0xFF = .ok .ret := by decide

theorem test_witness_BytesBeyondTheInstructionAreIgnored : operandCount 0x01 = 0 ∧ operandCount 0x7F = 1 := by decide

/-- A window that wraps at 255. -/
theorem test_witness_StepRunsTheDecodedInstruction :
    let s := at' #v[0, 0, 0, 0, 0, 0, 0, 0xF4] 0xFF 0 [(0, 3), (0xFF, 0x55)]
    s.run = .running ∧ decode (s.memRead s.pc) (s.memRead (s.pc + 1)) (s.memRead (s.pc + 2)) = .ok (.jeq 3) := by decide

/-- Both classes of undefined opcode. -/
theorem test_witness_UndefinedOpcodeIsFatal :
    ([State.reset, State.reset.load [0xFF]].all fun s => decide (s.run = .running) && decide (s.memRead s.pc ∉
      ([0x82, 0x47, 0xA0, 0xA1, 0xA2, 0xA3, 0xA7, 0xAA, 0x45, 0x46, 0x54, 0x55, 0x56, 0x50, 0x11, 0x01] : List Byte))) =
    true := by decide

theorem test_witness_UnrecognizedOpcodeEndsTheRun : State.reset.run = .running ∧ State.reset.memRead State.reset.pc ∉
    ([0x82, 0x47, 0xA0, 0xA1, 0xA2, 0xA3, 0xA7, 0xAA, 0x45, 0x46, 0x54, 0x55, 0x56, 0x50, 0x11, 0x01] : List Byte) := by
  decide

theorem test_witness_HaltedMachineNeverMoves :
    let s := { State.reset with run := .halted, fault := some .divideByZero }
    s.run = .halted ∧ Inv s ∧ s.fault ≠ none :=
  ⟨rfl, ⟨by decide, by decide, by decide⟩, by decide⟩

/-- HLT, a fault, and neither. -/
theorem test_witness_StepHaltsExactlyOnHltOrFault :
    ([State.reset.load [1], State.reset, State.reset.load [0x11]].map fun s =>
      (s.run, s.fault, after s (fun t => (t.run, t.fault)))) =
    [(.running, none, some (.halted, none)), (.running, none, some (.halted, some .unknownInstruction)),
     (.running, none, some (.running, none))] := by decide

/-- One state for each of the four clauses. -/
theorem test_witness_FaultLatchedByAStep :
    (State.reset.run = .running ∧ State.reset.fault = none) ∧
    State.reset.fetchDecode = .error .unknownInstruction ∧
    ((State.reset.load [0xA3, 0, 8]).fetchDecode = .ok (.div 0 8) ∧ (Instr.div 0 8).wellFormed = false) ∧
    ((State.reset.load [0xA3, 0, 6]).fetchDecode = .ok (.div (regByte 0) (regByte 6)) ∧
      (State.reset.load [0xA3, 0, 6]).reg 6 = 0) ∧
    ((State.reset.load [0xA3, 0, 7]).fetchDecode = .ok (.div (regByte 0) (regByte 7)) ∧
      (State.reset.load [0xA3, 0, 7]).reg 7 ≠ 0 ∧ (Instr.div (regByte 0) (regByte 7)).wellFormed = true) := by decide

theorem test_witness_FaultsArePrecise : State.reset.fault = none ∧ after State.reset (fun t => decide (t.fault ≠ none)) = some true := by
  decide

theorem test_witness_OutOfRangeOperandRaisesInvalidRegister : (Instr.jeq 8).wellFormed = false := by decide

/-- One witness for each of the three ways. -/
theorem test_witness_PcAdvancesByOperandCountPlusOne :
    (setsPc (opcodeByte (.ldi 0 1)) = false ∧ (Instr.ldi 0 1).wellFormed = true) ∧
    (flagE State.reset.fl = false ∧ (Instr.jeq 7).wellFormed = true) ∧
    (flagE (at' State.reset.regs 0 1 []).fl = true ∧ (Instr.jne 7).wellFormed = true) := by decide

theorem test_witness_StepKeepsTheInvariant : Inv State.reset ∧ (after State.reset fun _ => ()) = some () :=
  ⟨⟨by decide, by decide, by decide⟩, by decide⟩

/-- The last cell of an image and the first cell beyond it. -/
theorem test_witness_LoadPlacesTheImage :
    State.reset.mem.wf = true ∧ ([5, 6] : List Byte)[1]? = some 6 ∧ ([5, 6] : List Byte).length ≤ 1 + 256 ∧
    ([5, 6] : List Byte).length ≤ (2 : Byte).toNat := by decide

/-- A write above 255 lands at the bottom. -/
theorem test_witness_WriteSetsOneCell :
    Memory.wf [(0, 9), (255, 1)] = true ∧ (Memory.write [(0, 9), (255, 1)] 256 7).read 0 = 7 := by decide

theorem test_witness_EqualMemoriesAreEqualData :
    Memory.wf [(3, 9)] = true ∧ (Memory.write [(3, 9), (4, 1)] 4 0) = [(3, 9)] := by decide

theorem test_witness_PlacedWordIsTheNextInstruction :
    State.reset.run = .running ∧ State.reset.mem.wf = true ∧ decodeTableWord 24 0x0700A0 = some (.add 0 7) := by decide

theorem test_witness_DivWrites : State.reset.reg 7 ≠ 0 := by decide

theorem test_witness_DivideByZeroRaises : State.reset.reg 0 = 0 := by decide

theorem test_witness_SubUndoesAdd : (0 : Reg) ≠ 7 := by decide

theorem test_witness_PushStores : State.reset.mem.wf = true := by decide

/-- The two cases of POP. -/
theorem test_witness_PopLoads : (0 : Reg) ≠ spIndex ∧ (7 : Reg) = spIndex := by decide

/-- A pair of registers for each clause. -/
theorem test_witness_PushThenPop : State.reset.mem.wf = true ∧ (7 : Reg) = spIndex ∧ (0 : Reg) ≠ spIndex ∧ (6 : Reg) ≠ spIndex := by
  decide

/-- Program P7: the PUSH at 6 writes the cell at 8, which the PC reaches. -/
theorem test_witness_PushedByteIsFetchedNext :
    let s := at' #v[1, 0, 0, 0, 0, 0, 0, 9] 6 0 [(6, 0x45), (8, 0x47), (10, 1)]
    s.mem.wf = true ∧ after s (fun t => (t.run, decide (t.pc = t.sp),
      decode (t.reg 0) (t.memRead (t.pc + 1)) (t.memRead (t.pc + 2)) == .ok .hlt)) = some (.running, true, true) := by
  decide

theorem test_witness_ConditionalJumpsTestTheEqualFlag : flagE 0b001 = true ∧ flagE 0b110 = false := by decide

theorem test_witness_CallPushesTheReturnAddress : State.reset.mem.wf = true := by decide

/-- CALL R1 at 6 and the state right after it. -/
theorem test_witness_RetReturnsAfterTheCall :
    let s := at' #v[0, 0x0C, 0, 0, 0, 0, 0, 0xF4] 6 0 [(6, 0x50), (7, 1)]
    s.mem.wf = true ∧ after s (fun t => (t.sp, t.memRead t.sp)) = some (0xF3, 8) := by decide

/-- A register that ADD R0, R1 does not touch, and LDI's destination. -/
theorem test_witness_RegistersReadAndWritten :
    (2 ∉ readsRegs (.add 0 1) State.reset ∧ 2 ∉ writesRegs (.add 0 1)) ∧
    (2 ∉ readsRegs (.ldi 2 5) State.reset ∧ 2 ∈ writesRegs (.ldi 2 5)) ∧
    (7 ∉ readsRegs (.jeq 7) State.reset ∧ 7 ∉ writesRegs (.jeq 7)) := by decide

theorem test_witness_FlagsAreWrittenByCmpAndReadByJumps :
    after (State.reset.load [0x82, 1, 2]) (·.fl) = some 0 ∧ flagE 0b110 = flagE State.reset.fl := by decide

/-- For each clause: an address CALL R7 does not store to; ADD; PUSH R7 under two memories; RET under two memories that
agree at `sp`. -/
theorem test_witness_MemoryIsReachedOnlyThroughTheStack :
    (storeAddress (.call 7) State.reset ≠ some 0xF4 ∧ storeAddress (.add 0 1) State.reset = none) ∧
    (storeAddress (.push 7) State.reset = some 0xF3 ∧ (Instr.push 7).wellFormed = true ∧ State.reset.mem.wf = true ∧
      Memory.wf [(0xF3, 9)] = true) ∧
    Memory.read [(0xF3, 9)] State.reset.sp.toNat = State.reset.memRead State.reset.sp := by decide

theorem test_witness_OutputIsAppendOnly :
    (State.reset.load [1]).fetchDecode = .ok .hlt ∧ ∃ t, stepsTo 1 (State.reset.load [0x47, 7]) t :=
  ⟨by decide, _, rfl⟩

theorem test_witness_FlagModeNeverChanges : ∃ t, stepsTo 1 (sticky State.reset) t := ⟨_, rfl⟩

/-- A sticky machine with all flags set at a CMP. -/
theorem test_witness_StickyFlagsAreNeverCleared :
    let s := sticky (at' State.reset.regs 0 0b111 [(0, 0xA7)])
    s.config.flagsSticky = true ∧ (∃ t, stepsTo 1 s t) ∧ flagE s.fl = true ∧ flagG s.fl = true ∧ flagL s.fl = true :=
  ⟨rfl, ⟨_, rfl⟩, rfl, rfl, rfl⟩

/-- Two machines at a CMP that differ in their mode and in a flag no instruction reads. -/
theorem test_witness_FlagModesAgreeWithoutStaleEqual :
    let s := at' State.reset.regs 0 0b100 [(0, 0xA7)]
    let s' := sticky { s with fl := 0b110 }
    s.config.flagsSticky = false ∧ s'.config.flagsSticky = true ∧ AgreeUpToFlagMode s s' ∧
    (∀ (k : Nat) (u : State) (a b : Byte), k < 1 → stepsTo k s u → u.fetchDecode = .ok (.cmp a b) →
      flagE u.fl = false) ∧
    (∃ t, stepsTo 1 s t) ∧ ∃ t', stepsTo 1 s' t' := by
  refine ⟨rfl, rfl, ⟨rfl, by decide⟩, ?_, ⟨_, rfl⟩, _, rfl⟩
  intro k u a b hk h _
  obtain rfl : k = 0 := by omega
  cases h
  decide

end Sys2Proof.Tests
end

section
/-! SUPPORT. The case split every statement about `exec` uses: an instruction is ill-formed, and raises, or it is one of the
sixteen rows with legal operands, whose effect the `exec…_regByte` laws give. -/

namespace Sys2Proof.Machine

theorem exists_regByte_of_all_singleton {b : Byte} (h : [b].all isRegisterByte = true) : ∃ r : Reg, b = regByte r :=
  exists_regByte_of_isRegisterByte (by simpa using h)

theorem exists_regByte_of_all_pair {a b : Byte} (h : [a, b].all isRegisterByte = true) :
    ∃ x y : Reg, a = regByte x ∧ b = regByte y := by
  obtain ⟨ha, hb⟩ : isRegisterByte a = true ∧ isRegisterByte b = true := by simpa using h
  obtain ⟨x, hx⟩ := exists_regByte_of_isRegisterByte ha
  obtain ⟨y, hy⟩ := exists_regByte_of_isRegisterByte hb
  exact ⟨x, y, hx, hy⟩

/-- Case analysis on a well-formed instruction: its register operands are registers. -/
theorem wellFormed_cases {motive : (i : Instr) → i.wellFormed = true → Prop}
    (ldi : ∀ r v h, motive (.ldi (regByte r) v) h) (prn : ∀ r h, motive (.prn (regByte r)) h)
    (add : ∀ a b h, motive (.add (regByte a) (regByte b)) h) (sub : ∀ a b h, motive (.sub (regByte a) (regByte b)) h)
    (mul : ∀ a b h, motive (.mul (regByte a) (regByte b)) h) (div : ∀ a b h, motive (.div (regByte a) (regByte b)) h)
    (cmp : ∀ a b h, motive (.cmp (regByte a) (regByte b)) h) (or : ∀ a b h, motive (.or (regByte a) (regByte b)) h)
    (push : ∀ r h, motive (.push (regByte r)) h) (pop : ∀ r h, motive (.pop (regByte r)) h)
    (jmp : ∀ r h, motive (.jmp (regByte r)) h) (jeq : ∀ r h, motive (.jeq (regByte r)) h)
    (jne : ∀ r h, motive (.jne (regByte r)) h) (call : ∀ r h, motive (.call (regByte r)) h)
    (ret : ∀ h, motive .ret h) (hlt : ∀ h, motive .hlt h) (i : Instr) (hi : i.wellFormed = true) : motive i hi := by
  cases i with
  | ldi => obtain ⟨r, rfl⟩ := exists_regByte_of_all_singleton hi; exact ldi r _ hi
  | prn => obtain ⟨r, rfl⟩ := exists_regByte_of_all_singleton hi; exact prn r hi
  | add => obtain ⟨a, b, rfl, rfl⟩ := exists_regByte_of_all_pair hi; exact add a b hi
  | sub => obtain ⟨a, b, rfl, rfl⟩ := exists_regByte_of_all_pair hi; exact sub a b hi
  | mul => obtain ⟨a, b, rfl, rfl⟩ := exists_regByte_of_all_pair hi; exact mul a b hi
  | div => obtain ⟨a, b, rfl, rfl⟩ := exists_regByte_of_all_pair hi; exact div a b hi
  | cmp => obtain ⟨a, b, rfl, rfl⟩ := exists_regByte_of_all_pair hi; exact cmp a b hi
  | or => obtain ⟨a, b, rfl, rfl⟩ := exists_regByte_of_all_pair hi; exact or a b hi
  | push => obtain ⟨r, rfl⟩ := exists_regByte_of_all_singleton hi; exact push r hi
  | pop => obtain ⟨r, rfl⟩ := exists_regByte_of_all_singleton hi; exact pop r hi
  | jmp => obtain ⟨r, rfl⟩ := exists_regByte_of_all_singleton hi; exact jmp r hi
  | jeq => obtain ⟨r, rfl⟩ := exists_regByte_of_all_singleton hi; exact jeq r hi
  | jne => obtain ⟨r, rfl⟩ := exists_regByte_of_all_singleton hi; exact jne r hi
  | call => obtain ⟨r, rfl⟩ := exists_regByte_of_all_singleton hi; exact call r hi
  | ret => exact ret hi
  | hlt => exact hlt hi

theorem withReg_of_all_eq_false {b : Byte} (h : [b].all isRegisterByte = false) (s : State) (k : Reg → Result) :
    withReg b s k = raise .invalidRegister s :=
  withReg_invalid (by simpa using h) s k

theorem withRegs_of_all_eq_false {a b : Byte} (h : [a, b].all isRegisterByte = false) (s : State)
    (k : Reg → Reg → Result) : withRegs a b s k = raise .invalidRegister s := by
  obtain ⟨-, e⟩ | ⟨x, y, rfl, rfl, -⟩ := withRegs_cases a b s k
  · exact e
  · simp at h

/-- Operand validation comes before every effect (rule R115). -/
theorem exec_of_wellFormed_eq_false {i : Instr} (hi : i.wellFormed = false) (s : State) :
    exec i s = raise .invalidRegister s := by
  cases i with
  | ldi | prn | push | pop | jmp | jeq | jne | call => exact withReg_of_all_eq_false hi s _
  | add | sub | mul | div | or | cmp => exact withRegs_of_all_eq_false hi s _
  | ret | hlt => cases hi

/-- What holds of a state in which a fault was raised holds after `exec` if it holds after well-formed instructions. -/
theorem exec_next_of_wellFormed {P : State → Prop} {i : Instr} {s t : State} (h : exec i s = .next t)
    (hraise : ∀ c, P { s with run := .halted, fault := some c })
    (hlegal : i.wellFormed = true → ∃ u, exec i s = .next u ∧ P u) : P t := by
  have hex : ∃ u, exec i s = .next u ∧ P u := by
    cases hi : i.wellFormed with
    | true => exact hlegal hi
    | false => exact ⟨_, exec_of_wellFormed_eq_false hi s, hraise _⟩
  obtain ⟨u, hu, hP⟩ := hex
  cases h.symm.trans hu
  exact hP

/-- A change of state beforehand that commutes with raising a fault commutes with `exec` if it does so on well-formed
instructions. -/
theorem exec_mapNext_of_wellFormed {f : State → State} {i : Instr} {s : State}
    (hraise : raise .invalidRegister (f s) = mapNext f (raise .invalidRegister s))
    (hlegal : i.wellFormed = true → exec i (f s) = mapNext f (exec i s)) :
    exec i (f s) = mapNext f (exec i s) := by
  cases hi : i.wellFormed with
  | true => exact hlegal hi
  | false => rw [exec_of_wellFormed_eq_false hi, exec_of_wellFormed_eq_false hi, hraise]

/-! ### DIV, divisor by divisor -/

theorem execDiv_regByte_of_eq_zero {b : Reg} {s : State} (hb : s.reg b = 0) (a : Reg) :
    execDiv (regByte a) (regByte b) s = raise .divideByZero s := (execDiv_regByte a b s).trans (if_pos hb)

theorem execDiv_regByte_of_ne_zero {b : Reg} {s : State} (hb : s.reg b ≠ 0) (a : Reg) :
    execDiv (regByte a) (regByte b) s =
      .next ((s.setReg a (BitVec.ofNat 8 ((s.reg a).toNat / (s.reg b).toNat))).advance 2) :=
  (execDiv_regByte a b s).trans (if_neg hb)

end Sys2Proof.Machine
end

section
/-! SUPPORT and PROOF of O15. How far an instruction moves the PC. -/

namespace Sys2Proof.Machine

/-- The instructions that take the normal advance in `s`: bit 4 of the opcode byte is clear, or a conditional jump is not
taken (rule R116; 90_conflicts.md C1). -/
def AdvancesNormally (i : Instr) (s : State) : Prop :=
  setsPc (opcodeByte i) = false ∨ (∃ r, i = .jeq r ∧ flagE s.fl = false) ∨ (∃ r, i = .jne r ∧ flagE s.fl = true)

/-- Bits 7:6 of the opcode byte count the operand bytes (rule R80). -/
theorem operandCount_opcodeByte (i : Instr) : operandCount (opcodeByte i) = (operandBytes i).length := by
  obtain ⟨hlen, -⟩ := Laws.EncodedLength.of_cases i
  exact Nat.succ.inj hlen.symm

/-- A legal instruction that takes the normal advance and does not divide by zero has an effect that leaves the PC alone,
and then advances past its operand bytes. -/
theorem exec_eq_advance {i : Instr} {s : State} (hi : i.wellFormed = true)
    (hdiv : ∀ a b : Reg, i = .div (regByte a) (regByte b) → s.reg b ≠ 0) (hadv : AdvancesNormally i s) :
    ∃ u : State, exec i s = .next (u.advance (operandBytes i).length) ∧ u.pc = s.pc := by
  unfold AdvancesNormally at hadv
  induction i, hi using wellFormed_cases with
  | ldi r v => exact ⟨_, execLdi_regByte r v s, rfl⟩
  | prn r => exact ⟨_, execPrn_regByte r s, rfl⟩
  | add a b => exact ⟨_, execAdd_regByte a b s, rfl⟩
  | sub a b => exact ⟨_, execSub_regByte a b s, rfl⟩
  | mul a b => exact ⟨_, execMul_regByte a b s, rfl⟩
  | div a b => exact ⟨_, execDiv_regByte_of_ne_zero (hdiv a b rfl) a, rfl⟩
  | cmp a b => exact ⟨_, execCmp_regByte a b s, rfl⟩
  | or a b => exact ⟨_, execOr_regByte a b s, rfl⟩
  | push r => exact ⟨_, execPush_regByte r s, rfl⟩
  | pop r => exact ⟨_, execPop_regByte r s, rfl⟩
  | jeq r =>
    have hE : flagE s.fl = false := by simpa [setsPc, opcodeByte] using hadv
    exact ⟨s, by simp [exec, hE, operandBytes], rfl⟩
  | jne r =>
    have hE : flagE s.fl = true := by simpa [setsPc, opcodeByte] using hadv
    exact ⟨s, by simp [exec, hE, operandBytes], rfl⟩
  | jmp | call | ret => simp [setsPc, opcodeByte] at hadv
  | hlt => exact ⟨s.halt, rfl, rfl⟩

/-- Settles O15: the effect leaves the PC alone and the advance adds the operand count and 1, modulo 256. -/
theorem pcAdvancesByOperandCountPlusOne : Obligations.PcAdvancesByOperandCountPlusOne := by
  intro i s t hi hdiv hadv h
  obtain ⟨u, hu, hpc⟩ := exec_eq_advance hi hdiv hadv
  obtain rfl : u.advance (operandBytes i).length = t := by simpa [hu] using h
  simp [operandCount_opcodeByte, hpc, Nat.add_assoc]

end Sys2Proof.Machine
end

section
/-! SUPPORT and PROOF of O46. The flags. -/

namespace Sys2Proof.Machine

/-- Only CMP writes the flags (rule R30). -/
theorem exec_fl {i : Instr} {s t : State} (hcmp : ∀ a b, i ≠ .cmp a b) (h : exec i s = .next t) : t.fl = s.fl := by
  refine exec_next_of_wellFormed (P := fun t => t.fl = s.fl) h (fun _ => rfl) fun hi => ?_
  induction i, hi using wellFormed_cases with
  | cmp a b => exact absurd rfl (hcmp _ _)
  | div a b =>
    by_cases hb : s.reg b = 0
    · simp [exec, execDiv_regByte_of_eq_zero hb, raise_eq]
    · simp [exec, execDiv_regByte_of_ne_zero hb]
  | jeq | jne => cases hE : flagE s.fl <;> simp [exec, hE]
  | push | call => simp [exec, State.push_eq]
  | pop => simp [exec, State.pop_eq]
  | ret => simp [exec, execRet, State.pop_eq]
  | hlt => simp [exec, execHlt]
  | ldi | prn | add | sub | mul | or | jmp => simp [exec]

/-- So only a step that fetches CMP writes them. -/
theorem step_fl {s t : State} (hcmp : ∀ a b, s.fetchDecode ≠ .ok (.cmp a b)) (h : step s = .next t) : t.fl = s.fl := by
  obtain ⟨-, rfl⟩ | ⟨-, e, -, rfl⟩ | ⟨-, i, hi, hx⟩ := step_cases h
  · rfl
  · rfl
  · exact exec_fl (fun a b e => hcmp a b (e ▸ hi)) hx

/-- Setting the flags beforehand to `f` changes what an instruction other than CMP does only in the flags, if JEQ and JNE
find the same equal flag (rule R30). -/
theorem exec_setFl {i : Instr} {s : State} {f : Flags} (hcmp : ∀ a b, i ≠ .cmp a b)
    (hjump : ∀ r, i = .jeq r ∨ i = .jne r → flagE f = flagE s.fl) :
    exec i (s.setFl f) = mapNext (fun t => t.setFl f) (exec i s) := by
  refine exec_mapNext_of_wellFormed (f := fun t => t.setFl f) rfl fun hi => ?_
  induction i, hi using wellFormed_cases with
  | cmp a b => exact absurd rfl (hcmp _ _)
  | div a b =>
    by_cases hb : s.reg b = 0
    · simp only [exec, execDiv_regByte_of_eq_zero hb, execDiv_regByte_of_eq_zero (s := s.setFl f) hb]
      rfl
    · simp only [exec, execDiv_regByte_of_ne_zero hb, execDiv_regByte_of_ne_zero (s := s.setFl f) hb]
      rfl
  | jeq r =>
    have hE := hjump _ (.inl rfl)
    cases hf : flagE f <;> simp [exec, ← hE, hf] <;> rfl
  | jne r =>
    have hE := hjump _ (.inr rfl)
    cases hf : flagE f <;> simp [exec, ← hE, hf] <;> rfl
  | ret | hlt => rfl
  | ldi | prn | add | sub | mul | or | push | pop | call | jmp => simp [exec]; rfl

/-- Settles O46: the write side by `exec_fl` and `step_fl`, the read side by `exec_setFl`. -/
theorem flagsAreWrittenByCmpAndReadByJumps : Obligations.FlagsAreWrittenByCmpAndReadByJumps := by
  refine ⟨fun i s t => exec_fl, fun s t => step_fl, fun i s f hcmp hjeq hjne => ?_, fun r s f hE => ⟨?_, ?_⟩⟩
  · exact exec_setFl hcmp fun r hr => hr.elim (absurd · (hjeq r)) (absurd · (hjne r))
  · exact exec_setFl (by simp) fun _ _ => hE
  · exact exec_setFl (by simp) fun _ _ => hE

end Sys2Proof.Machine
end

section
/-! SUPPORT and PROOF of O45. The registers. -/

namespace Sys2Proof.Machine

/-! ### Register writes among themselves and with the other operations -/

theorem State.setReg_setReg_self (s : State) (r : Reg) (v w : Byte) : (s.setReg r v).setReg r w = s.setReg r w := by
  simp [State.setReg]

theorem State.setReg_comm {r r' : Reg} (h : r ≠ r') (s : State) (v w : Byte) :
    (s.setReg r v).setReg r' w = (s.setReg r' w).setReg r v := by
  simp [State.setReg, Vector.set_comm _ _ (Fin.val_ne_of_ne h)]

theorem State.advance_setReg (s : State) (r : Reg) (v : Byte) (n : Nat) :
    (s.setReg r v).advance n = (s.advance n).setReg r v := rfl

theorem State.setPc_setReg (s : State) (r : Reg) (v target : Byte) :
    (s.setReg r v).setPc target = (s.setPc target).setReg r v := rfl

theorem State.setFl_setReg (s : State) (r : Reg) (v : Byte) (f : Flags) :
    (s.setReg r v).setFl f = (s.setFl f).setReg r v := rfl

theorem State.emit_setReg (s : State) (r : Reg) (v w : Byte) :
    (s.setReg r v).emit w = (s.emit w).setReg r v := rfl

/-- A register write beforehand passes through a push whose value does not depend on it. -/
theorem State.push_setReg {r : Reg} (hr : r ≠ spIndex) (v : Byte) (s : State) {g : State → Byte}
    (hg : ∀ u : State, g (u.setReg r v) = g u) : (s.setReg r v).push g = (s.push g).setReg r v := by
  have hsp : (s.setReg r v).sp = s.sp := by simp [hr.symm]
  rw [State.push_eq, State.push_eq, hsp, State.setReg_comm hr, hg]
  rfl

/-- A register write beforehand passes through a pop whose receiver it commutes with. -/
theorem State.pop_setReg {r : Reg} (hr : r ≠ spIndex) (v : Byte) (s : State) {g : Byte → State → State}
    (hg : ∀ b, g b (s.setReg r v) = (g b s).setReg r v) : (s.setReg r v).pop g = (s.pop g).setReg r v := by
  have hsp (u : State) : (u.setReg r v).sp = u.sp := by simp [hr.symm]
  rw [State.pop_eq, State.pop_eq, hsp, State.memRead_setReg, hg, hsp, State.setReg_comm hr]

/-- A register write beforehand passes through a branch that does not jump to that register. -/
theorem branch_setReg {taken : Bool} {x r : Reg} (hx : taken = true → x ≠ r) (s : State) (v : Byte) :
    branch taken x (s.setReg r v) = mapNext (fun t => t.setReg r v) (branch taken x s) := by
  cases taken with
  | true => simp [hx rfl, State.setPc_setReg]
  | false => rfl

/-! ### The write table and the read table of rule R25 -/

@[simp] theorem mem_named {r : Reg} {b : Byte} : r ∈ named b ↔ b = regByte r := by
  simp only [named, Option.mem_toList]
  exact ⟨fun h => regIndex?_eq_some h, fun h => h ▸ regIndex?_regByte r⟩

theorem regByte_inj {r r' : Reg} : regByte r = regByte r' ↔ r = r' := by
  refine ⟨fun h => Option.some.inj ?_, congrArg _⟩
  rw [← regIndex?_regByte r, h, regIndex?_regByte]

/-- Only LDI and POP write a register without reading it. -/
theorem ldi_or_pop_of_writes_not_reads {i : Instr} {s : State} {r : Reg} (hread : r ∉ readsRegs i s)
    (hwrite : r ∈ writesRegs i) : (∃ v, i = .ldi (regByte r) v) ∨ (i = .pop (regByte r) ∧ r ≠ spIndex) := by
  cases i with
  | ldi b v => exact .inl ⟨v, by simp_all [writesRegs]⟩
  | pop b => exact .inr (by simp_all [readsRegs, writesRegs])
  | _ => simp_all [readsRegs, writesRegs]

/-- No register outside its row of the write table is changed by an instruction. -/
theorem exec_sameRegsBut {i : Instr} {s t : State} (h : exec i s = .next t) : SameRegsBut (writesRegs i) s t := by
  refine exec_next_of_wellFormed (P := SameRegsBut (writesRegs i) s) h (fun _ _ _ => rfl) fun hi => ?_
  induction i, hi using wellFormed_cases with
  | div a b =>
    by_cases hb : s.reg b = 0
    · exact ⟨_, execDiv_regByte_of_eq_zero hb a, fun _ _ => rfl⟩
    · exact ⟨_, execDiv_regByte_of_ne_zero hb a, by simp +contextual [SameRegsBut, writesRegs, regByte_inj, eq_comm]⟩
  | jeq | jne => cases hE : flagE s.fl <;> simp [exec, hE, SameRegsBut]
  | push | call => simp +contextual [exec, State.push_eq, SameRegsBut, writesRegs]
  | pop => simp +contextual [exec, State.pop_eq, SameRegsBut, writesRegs, regByte_inj, eq_comm]
  | ret => simp +contextual [exec, execRet, State.pop_eq, SameRegsBut, writesRegs]
  | hlt => simp [exec, execHlt, SameRegsBut]
  | ldi | add | sub | mul | or => simp +contextual [exec, SameRegsBut, writesRegs, regByte_inj, eq_comm]
  | prn | cmp | jmp => simp [exec, SameRegsBut]

/-- A register an instruction neither reads nor writes passes through it, untouched and unseen. -/
theorem exec_setReg {i : Instr} {s : State} {r : Reg} (hread : r ∉ readsRegs i s) (hwrite : r ∉ writesRegs i)
    (v : Byte) : exec i (s.setReg r v) = mapNext (fun t => t.setReg r v) (exec i s) := by
  refine exec_mapNext_of_wellFormed (f := fun t => t.setReg r v) rfl fun hi => ?_
  induction i, hi using wellFormed_cases with
  | ldi a w =>
    have hw : a ≠ r := by simpa [writesRegs, regByte_inj] using hwrite
    simp [exec, State.advance_setReg, State.setReg_comm hw.symm]
  | add a b | sub a b | mul a b | or a b =>
    obtain ⟨ha, hb⟩ : a ≠ r ∧ b ≠ r := by simpa [readsRegs, regByte_inj] using hread
    simp [exec, ha, hb, State.advance_setReg, State.setReg_comm ha.symm]
  | div a b =>
    obtain ⟨ha, hb⟩ : a ≠ r ∧ b ≠ r := by simpa [readsRegs, regByte_inj] using hread
    by_cases h0 : s.reg b = 0
    · have h0' : (s.setReg r v).reg b = 0 := by simpa [hb] using h0
      simp only [exec, execDiv_regByte_of_eq_zero h0, execDiv_regByte_of_eq_zero h0']
      rfl
    · have h0' : (s.setReg r v).reg b ≠ 0 := by simpa [hb] using h0
      simp [exec, execDiv_regByte_of_ne_zero h0, execDiv_regByte_of_ne_zero h0', ha, hb,
        State.advance_setReg, State.setReg_comm ha.symm]
  | cmp a b =>
    obtain ⟨ha, hb⟩ : a ≠ r ∧ b ≠ r := by simpa [readsRegs, regByte_inj] using hread
    simp [exec, ha, hb, State.advance_setReg, State.setFl_setReg]
  | prn x =>
    have hx : x ≠ r := by simpa [readsRegs, regByte_inj] using hread
    simp [exec, hx, State.advance_setReg, State.emit_setReg]
  | jmp x =>
    have hx : x ≠ r := by simpa [readsRegs, regByte_inj] using hread
    simpa only [exec, execJmp_regByte] using branch_setReg (fun _ => hx) s v
  | jeq x =>
    have hx : flagE s.fl = true → x ≠ r := by simpa [readsRegs, regByte_inj] using hread
    simpa only [exec, execJeq_regByte, State.setReg_fl] using branch_setReg hx s v
  | jne x =>
    have hx : (!flagE s.fl) = true → x ≠ r := by simpa [readsRegs, regByte_inj] using hread
    simpa only [exec, execJne_regByte, State.setReg_fl] using branch_setReg hx s v
  | push x =>
    obtain ⟨hsp, hx⟩ : r ≠ spIndex ∧ x ≠ r := by simpa [readsRegs, regByte_inj] using hread
    have hpush := State.push_setReg hsp v s (g := fun u => u.reg x) (by simp [hx])
    simp [exec, hpush, State.advance_setReg]
  | pop x =>
    obtain ⟨hsp, hx⟩ : r ≠ spIndex ∧ x ≠ r := by simpa [writesRegs, regByte_inj] using hwrite
    have hpop := State.pop_setReg hsp v s (g := fun w u => u.setReg x w) fun w => State.setReg_comm hx.symm s v w
    simp [exec, hpop, State.advance_setReg]
  | call x =>
    obtain ⟨hsp, hx⟩ : r ≠ spIndex ∧ x ≠ r := by simpa [readsRegs, regByte_inj] using hread
    have hpush := State.push_setReg hsp v s (g := fun u => u.pcPlus 2) fun _ => rfl
    simp [exec, hpush, hx, State.setPc_setReg]
  | ret =>
    have hsp : r ≠ spIndex := by simpa [readsRegs] using hread
    exact congrArg _ (State.pop_setReg hsp v s fun _ => rfl)
  | hlt => rfl

/-- A register an instruction writes without reading it has no influence by its old value. -/
theorem exec_setReg_of_writes {i : Instr} {s : State} {r : Reg} (hread : r ∉ readsRegs i s) (hwrite : r ∈ writesRegs i)
    (v : Byte) : exec i (s.setReg r v) = exec i s := by
  obtain ⟨w, rfl⟩ | ⟨rfl, hr⟩ := ldi_or_pop_of_writes_not_reads hread hwrite
  · simp [exec, State.setReg_setReg_self]
  · simp [exec, State.pop_eq, State.setReg_setReg_self, hr.symm]

/-- Settles O45: the frame of the write table, the two exchange lemmas, and LDI's own write. -/
theorem registersReadAndWritten : Obligations.RegistersReadAndWritten := by
  refine fun i s => ⟨fun t => exec_sameRegsBut, fun r v hread hwrite => exec_setReg hread hwrite v,
    fun r v hread hwrite => exec_setReg_of_writes hread hwrite v, fun r v t hi h => ?_⟩
  subst hi
  obtain rfl : (s.setReg r v).advance 2 = t := by simpa [exec] using h
  simp +contextual [SameRegsBut]

end Sys2Proof.Machine
end

section
/-! SUPPORT and PROOF of O22. A read after a write. -/

namespace Sys2Proof.Machine

/-- The written cell reads the value, at whatever address names it. -/
theorem Memory.read_write_self {m : Memory} (hm : m.wf = true) (addr : Nat) (v : Byte) :
    (m.write addr v).read addr = v := Memory.lookup_insert_self _ v hm

/-- An address that names another cell reads as before, canonical memory or not. -/
theorem Memory.read_write_of_ne {a addr : Nat} (h : a % 256 ≠ addr % 256) (v : Byte) (m : Memory) :
    (m.write addr v).read a = m.read a := Memory.lookup_insert_of_ne h v m

/-- Settles O22: the cell of the written address, and the others. -/
theorem writeSetsOneCell : Obligations.WriteSetsOneCell := by
  intro m addr v hm a ha
  have hcell : a % 256 = a := Nat.mod_eq_of_lt ha
  split
  · next h =>
    have hread : (m.write addr v).read a = (m.write addr v).read addr := by
      rw [Memory.read, Memory.read, memSize, hcell, h]
    rw [hread, Memory.read_write_self hm]
  · next h => exact Memory.read_write_of_ne (by rwa [hcell]) v m

end Sys2Proof.Machine
end

section
/-! SUPPORT and PROOF of O47. Exchanging memory before an instruction. -/

namespace Sys2Proof.Machine

/-- The state with its memory exchanged for `m`. -/
def State.setMem (s : State) (m : Memory) : State := { s with mem := m }

@[simp] theorem State.setMem_mem_self (s : State) : s.setMem s.mem = s := rfl
@[simp] theorem State.setMem_fl (s : State) (m : Memory) : (s.setMem m).fl = s.fl := rfl
@[simp] theorem State.setMem_sp (s : State) (m : Memory) : (s.setMem m).sp = s.sp := rfl
@[simp] theorem State.setMem_memRead (s : State) (m : Memory) (a : Byte) :
    (s.setMem m).memRead a = m.read a.toNat := rfl

/-- PUSH and CALL store at the decremented `sp`; no other instruction stores (rule R54). -/
theorem storeAddress_eq_some {i : Instr} {s : State} {addr : Byte} (h : storeAddress i s = some addr) :
    ((∃ r, i = .push r) ∨ ∃ r, i = .call r) ∧ addr = s.sp - 1 := by
  cases i with
  | push | call => simp_all [storeAddress]
  | _ => simp [storeAddress] at h

/-- Where an instruction stores does not depend on what is in memory. -/
theorem storeAddress_setMem (i : Instr) (s : State) (m : Memory) : storeAddress i (s.setMem m) = storeAddress i s := by
  cases i <;> rfl

/-- A byte an instruction does not store to reads as before. -/
theorem exec_memRead {i : Instr} {s t : State} (h : exec i s = .next t) {a : Byte} (ha : storeAddress i s ≠ some a) :
    t.memRead a = s.memRead a := by
  refine exec_next_of_wellFormed (P := fun t => t.memRead a = s.memRead a) h (fun _ => rfl) fun hi => ?_
  induction i, hi using wellFormed_cases with
  | push | call =>
    have hne : a ≠ s.sp - 1 := by simpa [storeAddress, eq_comm] using ha
    simp [exec, State.push_memRead_of_ne s _ hne]
  | div a b =>
    by_cases hb : s.reg b = 0
    · exact ⟨_, execDiv_regByte_of_eq_zero hb a, rfl⟩
    · exact ⟨_, execDiv_regByte_of_ne_zero hb a, rfl⟩
  | jeq | jne => cases hE : flagE s.fl <;> simp [exec, hE]
  | pop => simp [exec, State.pop_eq]
  | ret => simp [exec, execRet, State.pop_eq]
  | hlt => simp [exec, execHlt]
  | ldi | prn | add | sub | mul | cmp | or | jmp => simp [exec]

/-! ### What an instruction reads of memory -/

/-- A pop sees of memory the byte at `sp` only. -/
theorem State.pop_setMem {s : State} {m : Memory} (hsp : m.read s.sp.toNat = s.memRead s.sp)
    {g : Byte → State → State} (hg : ∀ b, g b (s.setMem m) = (g b s).setMem m) :
    (s.setMem m).pop g = (s.pop g).setMem m := by
  rw [State.pop_eq, State.pop_eq, State.setMem_sp, State.setMem_memRead, hsp, hg]
  rfl

/-- A push whose value does not depend on memory sees nothing of it: it writes one byte into whatever is there. -/
theorem State.push_setMem (s : State) {g : State → Byte} (hg : ∀ (u : State) (m : Memory), g (u.setMem m) = g u)
    (m : Memory) : (s.setMem m).push g =
      (s.push g).setMem (m.write (s.sp - 1).toNat (g (s.setReg spIndex (s.sp - 1)))) := by
  have hval : g ((s.setMem m).setReg spIndex (s.sp - 1)) = g (s.setReg spIndex (s.sp - 1)) :=
    hg (s.setReg spIndex (s.sp - 1)) m
  rw [State.push_eq, State.push_eq, State.setMem_sp, hval]
  rfl

/-- An instruction that does not store has the same effect under any other memory, which it leaves as it is, if a POP or
RET finds the same byte at `sp`. -/
theorem exec_setMem {i : Instr} {s : State} {m : Memory} (hstore : storeAddress i s = none)
    (hpop : (i = .ret ∨ ∃ r, i = .pop r) → m.read s.sp.toNat = s.memRead s.sp) :
    exec i (s.setMem m) = mapNext (fun t => t.setMem m) (exec i s) := by
  refine exec_mapNext_of_wellFormed (f := fun t => t.setMem m) rfl fun hi => ?_
  induction i, hi using wellFormed_cases with
  | push | call => cases hstore
  | pop r =>
    have hread := State.pop_setMem (hpop (.inr ⟨_, rfl⟩)) (g := fun v u => u.setReg r v) fun _ => rfl
    simp only [exec, execPop_regByte, hread]
    rfl
  | ret => exact congrArg _ (State.pop_setMem (hpop (.inl rfl)) fun _ => rfl)
  | div a b =>
    by_cases hb : s.reg b = 0
    · simp only [exec, execDiv_regByte_of_eq_zero hb, execDiv_regByte_of_eq_zero (s := s.setMem m) hb]
      rfl
    · simp only [exec, execDiv_regByte_of_ne_zero hb, execDiv_regByte_of_ne_zero (s := s.setMem m) hb]
      rfl
  | jeq | jne => cases hE : flagE s.fl <;> simp [exec, hE] <;> rfl
  | hlt => rfl
  | ldi | prn | add | sub | mul | cmp | or | jmp => simp [exec]; rfl

/-- A legal PUSH or CALL writes one byte, the same whatever is in memory, and does all else alike. -/
theorem exec_setMem_of_stores {i : Instr} {s : State} {addr : Byte} (hi : i.wellFormed = true)
    (hstore : storeAddress i s = some addr) :
    ∃ (v : Byte) (t : State), ∀ m, exec i (s.setMem m) = .next (t.setMem (m.write addr.toNat v)) := by
  obtain ⟨hcases, rfl⟩ := storeAddress_eq_some hstore
  obtain ⟨b, rfl⟩ | ⟨b, rfl⟩ := hcases
  · obtain ⟨r, rfl⟩ := exists_regByte_of_all_singleton hi
    refine ⟨(s.setReg spIndex (s.sp - 1)).reg r, (s.push fun u => u.reg r).advance 1, fun m => ?_⟩
    rw [exec, execPush_regByte, State.push_setMem s (g := fun u => u.reg r) fun _ _ => rfl]
    rfl
  · obtain ⟨r, rfl⟩ := exists_regByte_of_all_singleton hi
    refine ⟨s.pcPlus 2, (s.push fun u => u.pcPlus 2).setPc ((s.push fun u => u.pcPlus 2).reg r), fun m => ?_⟩
    rw [exec, execCall_regByte, State.push_setMem s (g := fun u => u.pcPlus 2) fun _ _ => rfl]
    rfl

/-- So a storing instruction run from states that differ only in memory ends in states that differ only in memory, and a
legal one stores the same byte into canonical memories. -/
theorem exec_setMem_agree {i : Instr} {s t : State} {addr : Byte} (hstore : storeAddress i s = some addr)
    (h : exec i s = .next t) (m : Memory) :
    ∃ m', exec i (s.setMem m) = .next (t.setMem m') ∧
      (i.wellFormed = true → s.mem.wf = true → m.wf = true → (t.setMem m').memRead addr = t.memRead addr) := by
  cases hi : i.wellFormed with
  | false =>
    obtain rfl : { s with run := .halted, fault := some .invalidRegister } = t := by
      simpa [exec_of_wellFormed_eq_false hi, raise_eq] using h
    exact ⟨m, exec_of_wellFormed_eq_false hi _, nofun⟩
  | true =>
    obtain ⟨v, u, hexec⟩ := exec_setMem_of_stores hi hstore
    obtain rfl : u.setMem (s.mem.write addr.toNat v) = t := by simpa [h, eq_comm] using hexec s.mem
    refine ⟨m.write addr.toNat v, hexec m, fun _ hs hm => ?_⟩
    simp [Memory.read_write_self hs, Memory.read_write_self hm]

/-- Settles O47: the write frame by `exec_memRead`; under exchanged memory, instructions that do not store (POP and RET
among them) by `exec_setMem`, and PUSH and CALL by `exec_setMem_agree`. -/
theorem memoryIsReachedOnlyThroughTheStack : Obligations.MemoryIsReachedOnlyThroughTheStack := by
  refine ⟨fun i s t h a => exec_memRead h, fun i s m hstore hnpop hnret => ?_, fun i s t m addr hstore h => ?_,
    fun i s m hi hsp => ?_⟩
  · exact exec_setMem hstore fun hi => hi.elim (absurd · hnret) fun ⟨r, hr⟩ => absurd hr (hnpop r)
  · obtain ⟨m', hexec, hbyte⟩ := exec_setMem_agree hstore h m
    exact ⟨_, hexec, (storeAddress_setMem i s m).trans hstore, rfl, hbyte⟩
  · have hstore : storeAddress i s = none := by
      obtain rfl | ⟨r, rfl⟩ := hi <;> rfl
    exact exec_setMem hstore fun _ => hsp

end Sys2Proof.Machine
end

section
/-! SUPPORT and PROOF of O3, O4 and O5. The decoder and the encoder are inverse: a window decodes to an instruction
exactly when the instruction's encoding starts it. -/

namespace Sys2Proof

/-- A window decodes to an instruction exactly when the instruction's bytes start it (rules R80, R82, R89). -/
theorem decode_eq_ok_iff {ir opa opb : Byte} {i : Instr} :
    decode ir opa opb = .ok i ↔ encode i <+: [ir, opa, opb] := by
  constructor
  · intro h
    obtain ⟨rfl, hops⟩ := decode_ok h
    rw [encode, List.cons_prefix_cons, hops]
    exact ⟨rfl, List.take_prefix _ _⟩
  · intro h
    obtain ⟨rfl, hops⟩ := List.cons_prefix_cons.mp h
    cases i with
    | ldi | add | sub | mul | div | cmp | or =>
      obtain ⟨rfl, rfl⟩ : _ = opa ∧ _ = opb := by simpa [operandBytes] using hops
      rw [opcodeByte]
      rfl
    | prn | push | pop | jmp | jeq | jne | call =>
      obtain rfl : _ = opa := by simpa [operandBytes] using hops
      rw [opcodeByte]
      rfl
    | ret | hlt => rfl

/-- Settles O4: the opcode byte, then the operand bytes that `decode_ok` finds in the window. -/
theorem encodeOfDecodeIsTheWindow : Obligations.EncodeOfDecodeIsTheWindow := by
  intro ir opa opb i h
  obtain ⟨rfl, hops⟩ := decode_ok h
  exact congrArg (opcodeByte i :: ·) hops

/-- An instruction is one to three bytes long, so that it fits the fetch window. -/
theorem length_encode_le (i : Instr) : (encode i).length ≤ 3 := by
  cases i <;> simp [encode, operandBytes]

/-- A window that agrees with an encoding, byte by byte as far as the encoding goes, decodes to its instruction. -/
theorem decode_of_forall_getElem {f : Nat → Byte} {i : Instr}
    (h : ∀ (k : Nat) (hk : k < (encode i).length), f k = (encode i)[k]) : decode (f 0) (f 1) (f 2) = .ok i := by
  rw [decode_eq_ok_iff, List.prefix_iff_getElem?]
  intro k hk
  have hk3 : k < 3 := hk.trans_le (length_encode_le i)
  interval_cases k <;> simp [← h _ hk]

/-- Decoding a list of bytes finds the instruction whose encoding starts the list. -/
theorem decodeBytes_of_encode_prefix {bytes : List Byte} {i : Instr} (h : encode i <+: bytes) :
    decodeBytes bytes = .ok i := by
  refine decode_of_forall_getElem (f := fun k => bytes.getD k 0) fun k hk => ?_
  have hbyte : bytes[k]? = some (encode i)[k] := List.prefix_iff_getElem?.mp h k hk
  simp [List.getD_eq_getElem?_getD, hbyte]

/-- Whether a window decodes to `i` depends on the opcode byte and the operand bytes it counts. -/
theorem decode_eq_ok_of_take {ir opa opb opa' opb' : Byte} {i : Instr}
    (htake : [opa, opb].take (operandCount ir) = [opa', opb'].take (operandCount ir))
    (h : decode ir opa opb = .ok i) : decode ir opa' opb' = .ok i := by
  rw [decode_eq_ok_iff, encodeOfDecodeIsTheWindow ir opa opb i h, List.take_succ_cons, htake, ← List.take_succ_cons]
  exact List.take_prefix _ _

/-- What is decoded depends on the opcode byte and the operand bytes it counts (rule R89); the class of an
undefined opcode depends on the opcode byte alone. -/
theorem decode_congr {ir opa opb opa' opb' : Byte}
    (htake : [opa, opb].take (operandCount ir) = [opa', opb'].take (operandCount ir)) :
    decode ir opa opb = decode ir opa' opb' := by
  cases h : decode ir opa opb with
  | ok i => exact (decode_eq_ok_of_take htake h).symm
  | error e =>
    cases h' : decode ir opa' opb' with
    | ok i => exact h.symm.trans (decode_eq_ok_of_take htake.symm h')
    | error e' => rw [decode_error h, decode_error h']

/-- Settles O5: operand count 0 takes no operand byte of the window and operand count 1 the first alone. -/
theorem bytesBeyondTheInstructionAreIgnored : Obligations.BytesBeyondTheInstructionAreIgnored :=
  fun _ _ _ _ _ => ⟨fun h => decode_congr (by simp [h]), fun h => decode_congr (by simp [h])⟩

namespace Machine

/-! ### Reading back a list of bytes -/

/-- A cell that a run of writes does not reach reads as before. -/
theorem Memory.read_writeList_of_ne {a addr : Nat} {vs : List Byte}
    (h : ∀ k < vs.length, a % 256 ≠ (addr + k) % 256) (m : Memory) : (m.writeList addr vs).read a = m.read a := by
  induction vs generalizing m addr with
  | nil => rfl
  | cons v rest ih =>
    have hrest : ∀ k < rest.length, a % 256 ≠ (addr + 1 + k) % 256 := fun k hk => by
      simpa only [Nat.add_assoc, Nat.add_comm 1] using h (k + 1) (Nat.succ_lt_succ hk)
    rw [Memory.writeList, ih hrest]
    exact Memory.read_write_of_ne (h 0 (Nat.zero_lt_succ _)) v m

/-- The cell of byte `i` of a run of writes holds that byte, unless the run comes round to it again. -/
theorem Memory.read_writeList {m : Memory} (hm : m.wf = true) {addr i : Nat} {v : Byte} {vs : List Byte}
    (hv : vs[i]? = some v) (hlen : vs.length ≤ i + 256) : (m.writeList addr vs).read (addr + i) = v := by
  induction vs generalizing m addr i with
  | nil => cases hv
  | cons w rest ih =>
    rw [List.length_cons] at hlen
    rw [Memory.writeList]
    cases i with
    | zero =>
      obtain rfl : w = v := by simpa using hv
      rw [Memory.read_writeList_of_ne fun k hk => by omega]
      exact Memory.read_write_self hm addr w
    | succ i =>
      rw [← Nat.add_assoc, Nat.add_right_comm]
      exact ih (Memory.wf_write hm addr w) hv (by omega)

/-- The fetch window of a state whose program counter addresses stored bytes starts with these bytes, at every address
(decision D3). -/
theorem State.fetchByte_placeAtPc {s : State} (hm : s.mem.wf = true) {bytes : List Byte} (hlen : bytes.length ≤ 256)
    {k : Nat} {v : Byte} (hv : bytes[k]? = some v) : (s.placeAtPc bytes).fetchByte k = v :=
  Memory.read_writeList hm hv (hlen.trans (Nat.le_add_left _ _))

/-- So the fetch finds the instruction whose encoding starts the stored bytes. -/
theorem State.fetchDecode_placeAtPc {s : State} (hm : s.mem.wf = true) {bytes : List Byte} (hlen : bytes.length ≤ 256)
    {i : Instr} (h : encode i <+: bytes) : (s.placeAtPc bytes).fetchDecode = .ok i :=
  decode_of_forall_getElem fun k hk =>
    State.fetchByte_placeAtPc hm hlen (List.prefix_iff_getElem?.mp h k hk)

/-- Settles O3: the encoding starts the list of bytes, and the bytes stored in memory. -/
theorem decodeOfEncodeIsTheInstruction : Obligations.DecodeOfEncodeIsTheInstruction :=
  ⟨fun _ _ _ => decodeBytes_of_encode_prefix (List.prefix_append _ _),
    fun i _ hm => State.fetchDecode_placeAtPc hm ((length_encode_le i).trans (by decide)) (List.prefix_refl _)⟩

end Machine

end Sys2Proof
end

section
/-! SUPPORT and PROOF of O1, O2 and O7. The opcode bytes. -/

namespace Sys2Proof

/-- Settles O1: each field is a shift of the byte, cut to its width. -/
theorem controlFieldsOfTheOpcodeByte : Obligations.ControlFieldsOfTheOpcodeByte := by
  intro ir
  refine ⟨?_, ?_, ?_, ?_⟩
  · have hshift : operandCount ir = ir.toNat / 64 % 4 := by
      simp [operandCount, Nat.shiftRight_eq_div_pow]
    omega
  · exact Nat.testBit_eq_decide_div_mod_eq
  · exact Nat.testBit_eq_decide_div_mod_eq
  · simp [idField]

/-- The opcode column of the table (rule R85). -/
def opcodes : List Byte :=
  [0x82, 0x47, 0xA0, 0xA1, 0xA2, 0xA3, 0xA7, 0xAA, 0x45, 0x46, 0x54, 0x55, 0x56, 0x50, 0x11, 0x01]

theorem opcodeByte_mem_opcodes (i : Instr) : opcodeByte i ∈ opcodes := by
  cases i <;> simp [opcodeByte, opcodes]

/-- A byte that decodes is in the opcode column. -/
theorem mem_opcodes_of_decode {ir opa opb : Byte} {i : Instr} (h : decode ir opa opb = .ok i) : ir ∈ opcodes := by
  obtain ⟨rfl, -⟩ := decode_ok h
  exact opcodeByte_mem_opcodes i

/-- Settles O2: the rows and the columns by evaluating the decoder and the fields at the sixteen bytes, the converse by
`mem_opcodes_of_decode`. -/
theorem opcodeTableIsDecodedAsWritten : Obligations.OpcodeTableIsDecodedAsWritten := by
  refine ⟨fun a b => ?_, by decide, fun ir a b i => mem_opcodes_of_decode⟩
  exact ⟨rfl, rfl, rfl, rfl, rfl, rfl, rfl, rfl, rfl, rfl, rfl, rfl, rfl, rfl, rfl, rfl⟩

/-- A byte outside the opcode column is refused in the class its bit 5 selects (rule R87). -/
theorem decode_of_not_mem_opcodes {ir : Byte} (h : ir ∉ opcodes) (opa opb : Byte) :
    decode ir opa opb = .error (if isAluOp ir then .unsupportedOperation else .unknownInstruction) := by
  cases hd : decode ir opa opb with
  | ok i => exact absurd (mem_opcodes_of_decode hd) h
  | error e => rw [decode_error hd]

namespace Machine

/-- A running machine that fetches an undefined opcode byte raises its fault (rules R201, R202). -/
theorem step_of_not_mem_opcodes {s : State} (hrun : s.run = .running) (h : s.memRead s.pc ∉ opcodes) :
    step s = raise (if isAluOp (s.memRead s.pc) then .unsupportedOperation else .unknownInstruction) s := by
  rw [step, hrun, State.fetchDecode_eq, decode_of_not_mem_opcodes h]
  cases isAluOp (s.memRead s.pc) <;> rfl

/-- A count over all bytes is a count over each half, so that `decide` can evaluate it without deep recursion. -/
theorem countP_range_256 (p : Nat → Bool) :
    (List.range 256).countP p = (List.range 128).countP p + (List.range 128).countP fun n => p (128 + n) := by
  rw [show 256 = 128 + 128 from rfl, List.range_add, List.countP_append, List.countP_map]
  rfl

/-- Settles O7: the fault by `step_of_not_mem_opcodes`, the two counts by evaluating the decoder at every byte. -/
theorem undefinedOpcodeIsFatal : Obligations.UndefinedOpcodeIsFatal := by
  refine ⟨fun s hrun h => step_of_not_mem_opcodes hrun h, ?_, ?_, rfl⟩
  · rw [countP_range_256]
    decide
  · rw [countP_range_256]
    decide

end Machine

end Sys2Proof
end

section
/-! SUPPORT and PROOF of O6, O9 and O11. One step: what it does in each situation, that it always answers a next state,
and when it leaves the loop. -/

namespace Sys2Proof.Machine

/-- A halted machine stays as it is (rule R120; log 6). -/
theorem step_of_halted {s : State} (h : s.run = .halted) : step s = .next s := by
  rw [step, h]
  rfl

/-- A running machine executes what it fetches (rule R111). -/
theorem step_of_fetchDecode_ok {s : State} {i : Instr} (hrun : s.run = .running) (h : s.fetchDecode = .ok i) :
    step s = exec i s := by
  rw [step, hrun, h]

/-- A running machine that fetches no instruction raises (rules R201, R202). -/
theorem step_of_fetchDecode_error {s : State} {e : DecodeError} (hrun : s.run = .running)
    (h : s.fetchDecode = .error e) : step s = raise (causeOf e) s := by
  rw [step, hrun, h]

/-- Settles O6: the window is what the fetch reads. -/
theorem stepRunsTheDecodedInstruction : Obligations.StepRunsTheDecodedInstruction := by
  intro s i hrun h
  exact step_of_fetchDecode_ok hrun (s.fetchDecode_eq.trans h)

/-- Everything an instruction can do to the execution loop: HLT ends the run and leaves the latch; any other instruction
raises, or completes and leaves the loop alone (rules R32, R33). -/
theorem exec_control (i : Instr) (s : State) :
    (i = .hlt ∧ exec i s = .next (s.halt.advance 0)) ∨
    (i ≠ .hlt ∧ ∃ c, exec i s = raise c s) ∨
    (i ≠ .hlt ∧ ∃ t, exec i s = .next t ∧ SameControl s t) := by
  cases hi : i.wellFormed with
  | false =>
    refine .inr (.inl ⟨?_, _, exec_of_wellFormed_eq_false hi s⟩)
    rintro rfl
    cases hi
  | true =>
    induction i, hi using wellFormed_cases with
    | hlt => exact .inl ⟨rfl, rfl⟩
    | div a b =>
      refine .inr ?_
      by_cases hb : s.reg b = 0
      · exact .inl ⟨nofun, _, execDiv_regByte_of_eq_zero hb a⟩
      · exact .inr ⟨nofun, _, execDiv_regByte_of_ne_zero hb a, rfl, rfl, rfl⟩
    | jeq | jne => cases hE : flagE s.fl <;> simp [exec, hE, SameControl]
    | push | call => simp [exec, State.push_eq, SameControl]
    | pop => simp [exec, State.pop_eq, SameControl]
    | ret => simp [exec, execRet, State.pop_eq, SameControl]
    | ldi | prn | add | sub | mul | cmp | or | jmp => simp [exec, SameControl]

/-- Every instruction answers a next state: a fault is one (log 7), and no instruction is refused. -/
theorem exists_exec_next (i : Instr) (s : State) : ∃ t, exec i s = .next t := by
  obtain ⟨-, h⟩ | ⟨-, c, h⟩ | ⟨-, t, h, -⟩ := exec_control i s
  · exact ⟨_, h⟩
  · exact ⟨_, h⟩
  · exact ⟨t, h⟩

/-- Settles O9: the machine is halted, or fetches no instruction and raises, or executes one. -/
theorem everyStateHasANextState : Obligations.EveryStateHasANextState := by
  intro s
  cases hrun : s.run with
  | halted => exact ⟨s, step_of_halted hrun⟩
  | running =>
    cases hf : s.fetchDecode with
    | error e => exact ⟨_, step_of_fetchDecode_error hrun hf⟩
    | ok i => exact (exists_exec_next i s).imp fun t h => (step_of_fetchDecode_ok hrun hf).trans h

/-- Settles O11: an unrecognised opcode raises, and a recognised one does to the loop what `exec_control` says. -/
theorem stepHaltsExactlyOnHltOrFault : Obligations.StepHaltsExactlyOnHltOrFault := by
  intro s t hrun hfault h
  obtain ⟨hhalted, -⟩ | ⟨-, e, he, rfl⟩ | ⟨-, i, hi, hx⟩ := step_cases h
  · simp [hrun] at hhalted
  · simp [he]
  · obtain ⟨hhlt, hu⟩ | ⟨hne, c, hu⟩ | ⟨hne, u, hu, hrun', hfault', -⟩ := exec_control i s <;> cases hx.symm.trans hu
    · simp [hi, hhlt, hfault]
    · simp [hi, hne]
    · simp [hi, hne, hrun', hfault', hrun, hfault]

end Sys2Proof.Machine
end

section
/-! SUPPORT and PROOF of O8 and O16. Many steps: from every state any number of steps leads to exactly one state, and a
halted state is the last. -/

namespace Sys2Proof.Machine

/-! ### Counting steps -/

@[simp] theorem stepsTo_zero {s t : State} : stepsTo 0 s t ↔ s = t :=
  ⟨Host.Outcome.next.inj, congrArg Host.Outcome.next⟩

theorem stepsTo_succ {n : Nat} {s t : State} : stepsTo (n + 1) s t ↔ ∃ u, step s = .next u ∧ stepsTo n u t := by
  obtain ⟨u, hu⟩ := everyStateHasANextState s
  have hcore : core.step s = .next u := hu
  simp [stepsTo, Host.Core.run, hcore, hu]

theorem exists_stepsTo (n : Nat) (s : State) : ∃ t, stepsTo n s t := by
  induction n generalizing s with
  | zero => exact ⟨s, stepsTo_zero.mpr rfl⟩
  | succ n ih =>
    obtain ⟨u, hu⟩ := everyStateHasANextState s
    exact (ih u).imp fun t ht => stepsTo_succ.mpr ⟨u, hu, ht⟩

theorem stepsTo_unique {n : Nat} {s t u : State} (ht : stepsTo n s t) (hu : stepsTo n s u) : t = u := by
  unfold stepsTo at ht hu
  exact Host.Outcome.next.inj (ht.symm.trans hu)

theorem stepsTo_add {m n : Nat} {s t u : State} (ht : stepsTo m s t) (hu : stepsTo n t u) : stepsTo (m + n) s u := by
  induction m generalizing s with
  | zero =>
    obtain rfl := stepsTo_zero.mp ht
    rwa [Nat.zero_add]
  | succ m ih =>
    obtain ⟨v, hv, ht⟩ := stepsTo_succ.mp ht
    rw [Nat.succ_add]
    exact stepsTo_succ.mpr ⟨v, hv, ih ht⟩

/-! ### The end of a run -/

/-- Any number of steps leaves a halted machine as it is (rule R120; log 6). -/
theorem stepsTo_of_halted {s : State} (h : s.run = .halted) (n : Nat) : stepsTo n s s := by
  induction n with
  | zero => exact stepsTo_zero.mpr rfl
  | succ n ih => exact stepsTo_succ.mpr ⟨s, step_of_halted h, ih⟩

/-- A run ends in one state, however its steps are counted: at the later count the machine has stayed where it halted. -/
theorem stepsTo_halted_unique {m n : Nat} {s t u : State} (ht : stepsTo m s t) (hthalt : t.run = .halted)
    (hu : stepsTo n s u) (huhalt : u.run = .halted) : t = u := by
  obtain ⟨k, rfl⟩ | ⟨k, rfl⟩ := (Nat.le_total m n).imp Nat.exists_eq_add_of_le Nat.exists_eq_add_of_le
  · exact stepsTo_unique (stepsTo_add ht (stepsTo_of_halted hthalt k)) hu
  · exact stepsTo_unique ht (stepsTo_add hu (stepsTo_of_halted huhalt k))

theorem endedNormally_iff {s : State} : endedNormally s = true ↔ s.run = .halted ∧ s.fault = none := by
  simp [endedNormally]

theorem endedFatally_iff {s : State} : endedFatally s = true ↔ s.run = .halted ∧ s.fault ≠ none := by
  simp [endedFatally]

/-- Settles O8: the step raises, which keeps PC, output and memory, and the halted state is the last. -/
theorem unrecognizedOpcodeEndsTheRun : Obligations.UnrecognizedOpcodeEndsTheRun := by
  intro s hrun h
  refine ⟨_, step_of_not_mem_opcodes hrun h, rfl, rfl, rfl, rfl, fun n u hu => ?_⟩
  exact stepsTo_unique hu (stepsTo_of_halted rfl n)

/-- A run that reaches a halted state does not stay running for ever. -/
theorem not_forall_running_of_halted {n : Nat} {s t : State} (ht : stepsTo n s t) (hhalt : t.run = .halted) :
    ¬ ∀ n, ∃ u, stepsTo n s u ∧ u.run = .running := by
  intro h
  obtain ⟨u, hu, hrun⟩ := h n
  cases stepsTo_unique ht hu
  simp [hrun] at hhalt

/-- A run halts, or stays running for ever. -/
theorem exists_halted_or_forall_running (s : State) :
    (∃ n t, stepsTo n s t ∧ t.run = .halted) ∨ ∀ n, ∃ t, stepsTo n s t ∧ t.run = .running := by
  by_cases h : ∃ n t, stepsTo n s t ∧ t.run = .halted
  · exact .inl h
  · refine .inr fun n => ?_
    obtain ⟨t, ht⟩ := exists_stepsTo n s
    cases hrun : t.run with
    | running => exact ⟨t, ht, hrun⟩
    | halted => exact absurd ⟨n, t, ht, hrun⟩ h

/-- Settles O16: a run halts or not, the latch tells which end it is, and the end is one state. -/
theorem runHasExactlyOneOutcome : Obligations.RunHasExactlyOneOutcome := by
  intro s
  simp only [endedNormally_iff, endedFatally_iff]
  refine ⟨?_, ?_, fun ⟨⟨n, t, ht, hhalt, _⟩, hinf⟩ => not_forall_running_of_halted ht hhalt hinf,
    fun ⟨⟨n, t, ht, hhalt, _⟩, hinf⟩ => not_forall_running_of_halted ht hhalt hinf⟩
  · obtain ⟨n, t, ht, hhalt⟩ | hinf := exists_halted_or_forall_running s
    · by_cases hfault : t.fault = none
      · exact .inl ⟨n, t, ht, hhalt, hfault⟩
      · exact .inr (.inl ⟨n, t, ht, hhalt, hfault⟩)
    · exact .inr (.inr hinf)
  · rintro ⟨⟨m, t, ht, hthalt, hnone⟩, n, u, hu, huhalt, hsome⟩
    cases stepsTo_halted_unique ht hthalt hu huhalt
    exact hsome hnone

end Sys2Proof.Machine
end

section
/-! SUPPORT and PROOF of O12 and O13. Which fault a step latches, and that it changes nothing else. -/

namespace Sys2Proof.Machine

/-- A legal instruction that does not divide by zero completes without touching the fault latch (rules R33, R203, R204). -/
theorem exists_exec_next_fault_eq {i : Instr} {s : State} (hi : i.wellFormed = true)
    (hdiv : ∀ a b : Reg, i = .div (regByte a) (regByte b) → s.reg b ≠ 0) :
    ∃ t, exec i s = .next t ∧ t.fault = s.fault := by
  induction i, hi using wellFormed_cases with
  | div a b => exact ⟨_, execDiv_regByte_of_ne_zero (hdiv a b rfl) a, rfl⟩
  | jeq | jne => cases hE : flagE s.fl <;> simp [exec, hE]
  | push | call => simp [exec, State.push_eq]
  | pop => simp [exec, State.pop_eq]
  | ret => simp [exec, execRet, State.pop_eq]
  | hlt => simp [exec, execHlt]
  | ldi | prn | add | sub | mul | cmp | or | jmp => simp [exec]

/-- A raise that answers `t` latched its cause in `t` (rule R206). -/
theorem fault_of_raise_eq_next {c : FaultCause} {s t : State} (h : raise c s = .next t) : t.fault = some c := by
  cases h
  rfl

/-- Settles O12: the decoder raises first, then operand validation, then DIV, and nothing else does. -/
theorem faultLatchedByAStep : Obligations.FaultLatchedByAStep := by
  intro s t hrun hfault h
  refine ⟨fun e he => ?opcode, fun i hi hill => ?operand, fun a b hi hb => ?divisor, fun i hi hwf hdiv => ?none⟩
  case opcode => exact fault_of_raise_eq_next ((step_of_fetchDecode_error hrun he).symm.trans h)
  all_goals rw [step_of_fetchDecode_ok hrun hi] at h
  case operand => exact fault_of_raise_eq_next ((exec_of_wellFormed_eq_false hill s).symm.trans h)
  case divisor => exact fault_of_raise_eq_next ((execDiv_regByte_of_eq_zero hb a).symm.trans h)
  case none =>
    obtain ⟨u, hu, hlatch⟩ := exists_exec_next_fault_eq hwf hdiv
    cases h.symm.trans hu
    exact hlatch.trans hfault

/-- An instruction that changes the fault latch raised, and so changed only the run state and the latch (rule R207;
decision D13). -/
theorem exec_eq_of_fault_ne {i : Instr} {s t : State} (h : exec i s = .next t) (hne : t.fault ≠ s.fault) :
    t = { s with run := .halted, fault := t.fault } := by
  obtain ⟨-, hu⟩ | ⟨-, c, hu⟩ | ⟨-, u, hu, -, hsame, -⟩ := exec_control i s <;> cases h.symm.trans hu
  · exact absurd rfl hne
  · rfl
  · exact absurd hsame hne

/-- Settles O13: a step that latches a fault is one whose decoder raised, or whose instruction did. -/
theorem faultsArePrecise : Obligations.FaultsArePrecise := by
  intro s t hnone h hlatched
  obtain ⟨-, rfl⟩ | ⟨-, e, -, rfl⟩ | ⟨-, i, -, hx⟩ := step_cases h
  · exact absurd hnone hlatched
  · rfl
  · exact exec_eq_of_fault_ne hx (hnone.symm ▸ hlatched)

end Sys2Proof.Machine
end

section
/-! SUPPORT and PROOF of O20, O10, O14 and O24. What one step keeps: the configuration, the canonical memory and the
bound on the flags. -/

namespace Sys2Proof.Machine

/-- No instruction changes the configuration (rule R4; log 1). -/
theorem exec_config {i : Instr} {s t : State} (h : exec i s = .next t) : t.config = s.config := by
  obtain ⟨-, hu⟩ | ⟨-, c, hu⟩ | ⟨-, u, hu, -, -, hconfig⟩ := exec_control i s <;> cases h.symm.trans hu
  · rfl
  · rfl
  · exact hconfig

theorem step_config {s t : State} (h : step s = .next t) : t.config = s.config := by
  obtain ⟨-, rfl⟩ | ⟨-, e, -, rfl⟩ | ⟨-, i, -, hx⟩ := step_cases h
  · rfl
  · rfl
  · exact exec_config hx

/-- An instruction leaves the flags, or is a CMP that combines them with the outcome of a comparison (rules R30, R146). -/
theorem exec_fl_cases {i : Instr} {s t : State} (h : exec i s = .next t) :
    t.fl = s.fl ∨ ∃ x y, t.fl = combineFlags s.config.flagsSticky s.fl (compareFlags x y) := by
  by_cases hcmp : ∃ a b, i = .cmp a b
  · obtain ⟨a, b, rfl⟩ := hcmp
    obtain ⟨-, rfl⟩ | ⟨x, y, -, -, hx⟩ := withRegs_next h
    · exact .inl rfl
    · cases hx
      exact .inr ⟨_, _, rfl⟩
  · exact .inl (exec_fl (fun a b hi => hcmp ⟨a, b, hi⟩) h)

/-- An instruction leaves memory, or writes one byte to it (rule R54). -/
theorem exec_mem_cases {i : Instr} {s t : State} (h : exec i s = .next t) :
    t.mem = s.mem ∨ ∃ addr v, t.mem = s.mem.write addr v := by
  refine exec_next_of_wellFormed (P := fun t => t.mem = s.mem ∨ ∃ addr v, t.mem = s.mem.write addr v) h
    (fun _ => .inl rfl) fun hi => ⟨t, h, ?_⟩
  cases hstore : storeAddress i s with
  | none =>
    have hsame : exec i s = mapNext (fun u => u.setMem s.mem) (exec i s) :=
      exec_setMem (m := s.mem) hstore fun _ => rfl
    have ht : t = t.setMem s.mem := by simpa [h] using hsame
    exact .inl (congrArg State.mem ht :)
  | some addr =>
    obtain ⟨v, u, hu⟩ := exec_setMem_of_stores hi hstore
    obtain rfl : t = u.setMem (s.mem.write addr.toNat v) := by simpa [h] using hu s.mem
    exact .inr ⟨_, _, rfl⟩

theorem exec_mem_wf {i : Instr} {s t : State} (hm : s.mem.wf = true) (h : exec i s = .next t) : t.mem.wf = true := by
  obtain hmem | ⟨addr, v, hmem⟩ := exec_mem_cases h <;> rw [hmem]
  · exact hm
  · exact Memory.wf_write hm addr v

/-- A comparison sets one flag (rule R146). -/
theorem flagsAtMostOne_compareFlags (x y : Byte) : flagsAtMostOne (compareFlags x y) = true := by
  obtain ⟨-, e⟩ | ⟨-, e⟩ | ⟨-, e⟩ := compareFlags_cases x y <;> rw [e] <;> rfl

theorem exec_flagsAtMostOne {i : Instr} {s t : State} (hmode : s.config.flagsSticky = false)
    (hfl : flagsAtMostOne s.fl = true) (h : exec i s = .next t) : flagsAtMostOne t.fl = true := by
  obtain hsame | ⟨x, y, hcmp⟩ := exec_fl_cases h
  · rwa [hsame]
  · rw [hcmp, hmode]
    exact flagsAtMostOne_compareFlags x y

/-- A machine that still runs after an instruction latched no fault in it (rules R33, R206). -/
theorem exec_runningNoFault {i : Instr} {s t : State} (hs : s.run = .running → s.fault = none)
    (h : exec i s = .next t) (hrun : t.run = .running) : t.fault = none := by
  obtain ⟨-, hu⟩ | ⟨-, c, hu⟩ | ⟨-, u, hu, hrun', hfault, -⟩ := exec_control i s <;> cases h.symm.trans hu
  · cases hrun
  · cases hrun
  · rw [hfault]
    exact hs (hrun'.symm.trans hrun)

theorem exec_inv {i : Instr} {s t : State} (hs : Inv s) (h : exec i s = .next t) : Inv t where
  memWf := exec_mem_wf hs.memWf h
  runningNoFault := exec_runningNoFault hs.runningNoFault h
  flags hmode := by
    rw [exec_config h] at hmode
    exact exec_flagsAtMostOne hmode (hs.flags hmode) h

/-- Raising a fault keeps the invariant: the machine is halted (rule R206). -/
theorem Inv.raised {s : State} (hs : Inv s) (c : FaultCause) : Inv { s with run := .halted, fault := some c } :=
  ⟨hs.memWf, nofun, hs.flags⟩

/-- Settles O20: a step stays, raises, or executes an instruction, and each keeps the invariant. -/
theorem stepKeepsTheInvariant : Obligations.StepKeepsTheInvariant := by
  intro s t hs h
  obtain ⟨-, rfl⟩ | ⟨-, e, -, rfl⟩ | ⟨-, i, -, hx⟩ := step_cases h
  · exact hs
  · exact hs.raised _
  · exact exec_inv hs hx

/-- A machine that has latched a fault is halted (rule R33). -/
theorem Inv.halted_of_fault {s : State} (hs : Inv s) (h : s.fault ≠ none) : s.run = .halted := by
  cases hrun : s.run with
  | halted => rfl
  | running => exact absurd (hs.runningNoFault hrun) h

/-- Settles O10: a halted machine stays, and under the invariant a latched fault means a halted machine. -/
theorem haltedMachineNeverMoves : Obligations.HaltedMachineNeverMoves :=
  ⟨fun _ n h => stepsTo_of_halted h n, fun _ n hs h => stepsTo_of_halted (hs.halted_of_fault h) n⟩

/-- Settles O14: validation raises before any effect. -/
theorem outOfRangeOperandRaisesInvalidRegister : Obligations.OutOfRangeOperandRaisesInvalidRegister :=
  fun _ s hi => (exec_of_wellFormed_eq_false hi s).trans (raise_eq _ s)

theorem decodeTableWord_eq_some_iff {nbits w : Nat} {i : Instr} :
    decodeTableWord nbits w = some i ↔ decodeBytes (tableBytes nbits w) = .ok i := by
  unfold decodeTableWord
  cases decodeBytes (tableBytes nbits w) <;> simp

/-- Settles O24: the three bytes of the word start with the instruction's encoding, and so does the window that fetches
them. -/
theorem placedWordIsTheNextInstruction : Obligations.PlacedWordIsTheNextInstruction := by
  intro s nbits w i hrun hm h
  have hprefix : encode i <+: tableBytes nbits w := decode_eq_ok_iff.mp (decodeTableWord_eq_some_iff.mp h)
  have hlen : (tableBytes nbits w).length ≤ 256 := by simp [tableBytes]
  exact step_of_fetchDecode_ok hrun (State.fetchDecode_placeAtPc hm hlen hprefix)

end Sys2Proof.Machine
end

section
/-! SUPPORT and PROOF of O17, O18, O19, O21 and O23. Reset, loading, and memories as data. -/

namespace Sys2Proof.Machine

/-- Settles O17: each value by evaluating the state after reset. -/
theorem resetValues : Obligations.ResetValues :=
  ⟨rfl, rfl, rfl, rfl, rfl, rfl, by decide, fun _ => rfl, rfl⟩

/-- Settles O18: empty memory is canonical, nothing is latched, no flag is set. -/
theorem invariantHoldsAtReset : Obligations.InvariantHoldsAtReset :=
  fun _ => ⟨Memory.wf_nil, fun _ => rfl, fun _ => rfl⟩

/-- Loading changes memory only, and keeps it canonical (rule R63). -/
theorem Inv.load {s : State} (hs : Inv s) (image : List Byte) : Inv (s.load image) :=
  ⟨State.load_wf hs.memWf image, hs.runningNoFault, hs.flags⟩

/-- Settles O19: the invariant holds after reset, and loading keeps it. -/
theorem invariantHoldsAfterLoading : Obligations.InvariantHoldsAfterLoading :=
  fun c image => (invariantHoldsAtReset c).load image

/-- Settles O21: the loader is a run of writes from address 0. -/
theorem loadPlacesTheImage : Obligations.LoadPlacesTheImage := by
  intro s image hm
  refine ⟨fun i v hv hlen => ?_, fun a ha => ?_, rfl⟩
  · have hread := Memory.read_writeList hm (addr := loadBase) hv hlen
    rwa [loadBase, Nat.zero_add] at hread
  · refine Memory.read_writeList_of_ne (fun k hk => ?_) s.mem
    rw [loadBase]
    omega

theorem Memory.wfFrom_cons {lo k : Nat} {v : Byte} {m : Memory} :
    Memory.wfFrom lo ((k, v) :: m) = true ↔ lo ≤ k ∧ k < memSize ∧ v ≠ memReset ∧ Memory.wfFrom (k + 1) m = true := by
  simp [Memory.wfFrom, and_assoc]

theorem Memory.lookup_cons_self (k : Nat) (v : Byte) (m : Memory) : Memory.lookup k ((k, v) :: m) = v := if_pos rfl

theorem Memory.lookup_cons_of_lt {k a : Nat} (h : k < a) (v : Byte) (m : Memory) :
    Memory.lookup a ((k, v) :: m) = Memory.lookup a m := if_neg h.ne

/-- The first cell of a canonical list is not below the first cell of one that reads alike. -/
theorem Memory.first_le_of_lookup_eq {k lo : Nat} {v : Byte} {m m' : Memory} (hv : v ≠ memReset)
    (hm' : Memory.wfFrom lo m' = true) (h : Memory.lookup k ((k, v) :: m) = Memory.lookup k m') : lo ≤ k := by
  by_contra hlt
  rw [Memory.lookup_cons_self, Memory.lookup_below (not_le.mp hlt) hm'] at h
  exact hv h

/-- Canonical lists that read alike wherever one of them could list a cell are equal. -/
theorem Memory.eq_of_lookup_eq {lo : Nat} {m m' : Memory} (hm : Memory.wfFrom lo m = true)
    (hm' : Memory.wfFrom lo m' = true)
    (h : ∀ a, lo ≤ a → a < memSize → Memory.lookup a m = Memory.lookup a m') : m = m' := by
  induction m generalizing lo m' with
  | nil =>
    cases m' with
    | nil => rfl
    | cons c' rest' =>
      obtain ⟨k', v'⟩ := c'
      obtain ⟨hlo', hk', hv', -⟩ := Memory.wfFrom_cons.mp hm'
      exact absurd ((h k' hlo' hk').trans (Memory.lookup_cons_self ..)).symm hv'
  | cons c rest ih =>
    obtain ⟨k, v⟩ := c
    obtain ⟨hlo, hk, hv, hrest⟩ := Memory.wfFrom_cons.mp hm
    cases m' with
    | nil => exact absurd ((Memory.lookup_cons_self ..).symm.trans (h k hlo hk)) hv
    | cons c' rest' =>
      obtain ⟨k', v'⟩ := c'
      obtain ⟨hlo', hk', hv', hrest'⟩ := Memory.wfFrom_cons.mp hm'
      obtain rfl : k = k' := by
        refine le_antisymm (Memory.first_le_of_lookup_eq hv' ?_ (h k' hlo' hk').symm)
          (Memory.first_le_of_lookup_eq hv ?_ (h k hlo hk))
        · exact Memory.wfFrom_cons.mpr ⟨le_rfl, hk, hv, hrest⟩
        · exact Memory.wfFrom_cons.mpr ⟨le_rfl, hk', hv', hrest'⟩
      obtain rfl : v = v' := by simpa only [Memory.lookup_cons_self] using h k hlo hk
      have htail : rest = rest' := ih hrest hrest' fun a hka ha => by
        simpa only [Memory.lookup_cons_of_lt hka] using h a (by omega) ha
      rw [htail]

/-- Settles O23: below 256 a read is a lookup. -/
theorem equalMemoriesAreEqualData : Obligations.EqualMemoriesAreEqualData := by
  intro m m' hm hm' h
  refine Memory.eq_of_lookup_eq hm hm' fun a _ ha => ?_
  simpa only [Memory.read, Nat.mod_eq_of_lt ha] using h a ha

end Sys2Proof.Machine
end

section
/-! SUPPORT and PROOF of O25 to O32. The ALU. -/

namespace Sys2Proof.Machine

/-- Everything a register write and the normal advance leave unchanged, and the PC. -/
theorem State.setReg_advance_frame (s : State) (r : Reg) (v : Byte) (n : Nat) :
    ((s.setReg r v).advance n).pc.toNat = (s.pc.toNat + (n + 1)) % 256 ∧
    SameRegsBut [r] s ((s.setReg r v).advance n) ∧ ((s.setReg r v).advance n).fl = s.fl ∧
    SameMem s ((s.setReg r v).advance n) ∧ ((s.setReg r v).advance n).out = s.out ∧
    SameControl s ((s.setReg r v).advance n) := by
  refine ⟨rfl, fun k hk => ?_, rfl, fun _ => rfl, rfl, rfl, rfl, rfl⟩
  rw [State.advance_reg, State.reg_setReg, if_neg (List.ne_of_not_mem_cons hk)]

theorem State.setReg_advance_reg_self (s : State) (r : Reg) (v : Byte) (n : Nat) :
    ((s.setReg r v).advance n).reg r = v := by simp

/-- Settles O25: one register write and the normal advance. -/
theorem addWrites : Obligations.AddWrites := fun a b s =>
  ⟨_, execAdd_regByte a b s, congrArg BitVec.toNat (s.setReg_advance_reg_self a _ 2), s.setReg_advance_frame a _ 2⟩

/-- Settles O26: the remainder is non-negative, so it is the byte `BitVec.ofInt` makes of the difference. -/
theorem subWrites : Obligations.SubWrites := by
  intro a b s
  refine ⟨_, execSub_regByte a b s, ?_, s.setReg_advance_frame a _ 2⟩
  rw [State.setReg_advance_reg_self, BitVec.toNat_ofInt]
  exact Int.toNat_of_nonneg (Int.emod_nonneg _ (by decide))

/-- Settles O27: one register write and the normal advance. -/
theorem mulWrites : Obligations.MulWrites := fun a b s =>
  ⟨_, execMul_regByte a b s, congrArg BitVec.toNat (s.setReg_advance_reg_self a _ 2), s.setReg_advance_frame a _ 2⟩

/-- Settles O28: the quotient is a byte, so that it is not reduced. -/
theorem divWrites : Obligations.DivWrites := by
  intro a b s hb
  refine ⟨_, execDiv_regByte_of_ne_zero hb a, ?_, s.setReg_advance_frame a _ 2⟩
  rw [State.setReg_advance_reg_self, BitVec.toNat_ofNat]
  exact Nat.mod_eq_of_lt ((Nat.div_le_self _ _).trans_lt (s.reg a).isLt)

/-- Settles O29: the zero divisor raises before the write. -/
theorem divideByZeroRaises : Obligations.DivideByZeroRaises := fun a _ s hb =>
  (execDiv_regByte_of_eq_zero hb a).trans (raise_eq _ s)

/-- Settles O30: the bits of an OR are the ORs of the bits. -/
theorem orWrites : Obligations.OrWrites := by
  intro a b s
  refine ⟨_, execOr_regByte a b s, fun i => ?_, s.setReg_advance_frame a _ 2⟩
  rw [State.setReg_advance_reg_self, BitVec.getLsbD_or]

/-- Settles O31: each flag of the combination is that flag of the old flags, if they are kept, or of the outcome. -/
theorem cmpWritesTheFlags : Obligations.CmpWritesTheFlags := by
  intro a b s
  refine ⟨_, execCmp_regByte a b s, ?_, rfl, fun _ _ => rfl, fun _ => rfl, rfl, rfl, rfl, rfl⟩
  simp

/-- Settles O32: ADD and SUB change `x[a]` only, which the SUB gives back because `x[b]` is the same for both. -/
theorem subUndoesAdd : Obligations.SubUndoesAdd := by
  intro a b s hab
  obtain ⟨t, ht, hsum, -, htregs, -⟩ := addWrites a b s
  obtain ⟨u, hu, hdiff, -, huregs, -⟩ := subWrites a b t
  refine ⟨t, u, ht, hu, fun r _ => ?_⟩
  by_cases hr : r = a
  · subst hr
    have hb : t.reg b = s.reg b := htregs b (by simpa using hab.symm)
    rw [hsum, hb] at hdiff
    exact BitVec.eq_of_toNat_eq (by omega)
  · have hr' : r ∉ [a] := by simpa using hr
    exact (huregs r hr').trans (htregs r hr')

end Sys2Proof.Machine
end

section
/-! SUPPORT and PROOF of O33 to O41. The stack and control flow. -/

namespace Sys2Proof.Machine

/-! ### PUSH and CALL -/

theorem toNat_sub_one (x : Byte) : (x - 1).toNat = (x.toNat + 255) % 256 := by
  rw [BitVec.toNat_sub, Nat.add_comm]
  rfl

/-- Everything a push leaves unchanged, wherever the PC goes then, and the new `sp`. -/
theorem State.push_setPc_frame (s : State) (v : State → Byte) (target : Byte) :
    ((s.push v).setPc target).sp = s.sp - 1 ∧ SameRegsBut [spIndex] s ((s.push v).setPc target) ∧
    ((s.push v).setPc target).fl = s.fl ∧ SameMemBut (s.sp - 1) s ((s.push v).setPc target) ∧
    ((s.push v).setPc target).out = s.out ∧ SameControl s ((s.push v).setPc target) := by
  refine ⟨?_, fun r hr => ?_, rfl, fun a ha => s.push_memRead_of_ne v ha, rfl, rfl, rfl, rfl⟩
  · simp [State.push_eq]
  · have hr' : r ≠ spIndex := List.ne_of_not_mem_cons hr
    simp [State.push_eq, hr']

/-- A register as the decrement of `sp` leaves it (decision D15). -/
theorem State.reg_setReg_spIndex (s : State) (r : Reg) (v : Byte) :
    (s.setReg spIndex v).reg r = if r = spIndex then v else s.reg r := State.reg_setReg s spIndex r v

theorem storeAddress_push (b : Byte) (s : State) : storeAddress (.push b) s = some (s.sp - 1) := by
  simp [storeAddress]

theorem storeAddress_call (b : Byte) (s : State) : storeAddress (.call b) s = some (s.sp - 1) := by
  simp [storeAddress]

/-- Settles O33: the pushed byte is the register as the decrement leaves it. -/
theorem pushStores : Obligations.PushStores := by
  intro r s hm
  obtain ⟨hsp, hframe⟩ := s.push_setPc_frame (fun u => u.reg r) ((s.push fun u => u.reg r).pcPlus 2)
  refine ⟨s.sp - 1, _, execPush_regByte r s, storeAddress_push _ s, toNat_sub_one _, hsp, ?_, rfl, hframe⟩
  rw [State.advance_memRead, State.push_memRead_self hm, State.reg_setReg_spIndex]

/-- Settles O39: the pushed byte is the return address, and the PC is the register as the push leaves it. -/
theorem callPushesTheReturnAddress : Obligations.CallPushesTheReturnAddress := by
  intro r s hm
  obtain ⟨hsp, hframe⟩ := s.push_setPc_frame (fun u => u.pcPlus 2) ((s.push fun u => u.pcPlus 2).reg r)
  refine ⟨s.sp - 1, _, execCall_regByte r s, storeAddress_call _ s, toNat_sub_one _, hsp, ?_, ?_, hframe⟩
  · rw [State.setPc_memRead, State.push_memRead_self hm]
    rfl
  · rw [State.setPc_pc, State.push_eq, State.memWrite_reg, State.reg_setReg_spIndex]

/-- Settles O36: the cell at `sp` holds the register as PUSH left it, so that the bytes that decode are the window. -/
theorem pushedByteIsFetchedNext : Obligations.PushedByteIsFetchedNext := by
  intro r s t i hm h hrun hpc hi
  obtain ⟨addr, u, hu, -, -, hsp, hbyte, -, hregs, -⟩ := pushStores r s hm
  cases h.symm.trans hu
  have hpushed : t.memRead t.pc = t.reg r := by
    rw [hpc, hsp, hbyte]
    split
    · next hr => rw [hr, ← hsp, State.sp_eq]
    · next hr => exact (hregs r (by simpa using hr)).symm
  rw [← hpushed] at hi
  exact stepRunsTheDecodedInstruction t i hrun hi

/-! ### POP and RET -/

/-- Settles O34: the receiver writes the register, then the increment writes register 7. -/
theorem popLoads : Obligations.PopLoads := by
  intro r s
  refine ⟨_, execPop_regByte r s, fun hr => ?_, fun hr => ?_, rfl, fun k hk => ?_, rfl, fun _ => rfl, rfl, rfl, rfl, rfl⟩
  · simp [State.pop_eq, hr, Ne.symm hr]
  · simp [State.pop_eq, hr]
  · obtain ⟨hsp, hr⟩ : k ≠ spIndex ∧ k ≠ r := by simpa using hk
    simp [State.pop_eq, hsp, hr]

/-- Settles O40: the receiver writes the PC, then the increment writes register 7. -/
theorem retPopsThePc : Obligations.RetPopsThePc := by
  intro s
  refine ⟨_, rfl, rfl, ?_, fun k hk => ?_, rfl, fun _ => rfl, rfl, rfl, rfl, rfl⟩
  · simp [State.pop_eq]
  · have hsp : k ≠ spIndex := List.ne_of_not_mem_cons hk
    simp [State.pop_eq, hsp]

/-- Settles O41: RET reads the return address where CALL left it, and adds to `sp` what CALL took from it. -/
theorem retReturnsAfterTheCall : Obligations.RetReturnsAfterTheCall := by
  intro r s t u hm h husp hubyte
  obtain ⟨addr, t', ht', -, haddr, hsp, hbyte, -⟩ := callPushesTheReturnAddress r s hm
  cases h.symm.trans ht'
  obtain ⟨v, hv, hpc, hvsp, -⟩ := retPopsThePc u
  refine ⟨v, hv, ?_, BitVec.eq_of_toNat_eq ?_⟩
  · rw [hpc, hubyte, hsp, hbyte]
  · rw [hvsp, husp, hsp, haddr]
    omega

/-! ### PUSH then POP -/

/-- Every register after PUSH p and POP q: q, or register 7 for it one higher, holds the pushed byte, `sp` is back unless
q is register 7, and the others are untouched (rule R163). -/
theorem exec_push_pop_reg {s : State} (hm : s.mem.wf = true) (p q : Reg) :
    ∃ t u, exec (.push (regByte p)) s = .next t ∧ exec (.pop (regByte q)) t = .next u ∧
      ∀ r, u.reg r =
        if r = spIndex then if q = spIndex then (s.setReg spIndex (s.sp - 1)).reg p + 1 else s.sp
        else if r = q then (s.setReg spIndex (s.sp - 1)).reg p else s.reg r := by
  have hbyte := State.push_memRead_self hm fun u => u.reg p
  obtain ⟨hsp, hregs, -⟩ := s.push_setPc_frame (fun u => u.reg p) ((s.push fun u => u.reg p).pcPlus 2)
  rw [State.setPc_sp] at hsp
  refine ⟨_, _, execPush_regByte p s, execPop_regByte q _, fun r => ?_⟩
  rw [State.pop_eq, State.advance_sp, hsp, State.advance_memRead, hbyte]
  by_cases hr : r = spIndex
  · subst hr
    by_cases hq : q = spIndex
    · simp [hq]
    · simp [hq, Ne.symm hq, hsp]
  · by_cases hrq : r = q
    · subst hrq
      simp [hr]
    · have hrs := hregs r (by simpa using hr)
      simpa [hr, hrq] using hrs

/-- Settles O35: each clause reads off a register after the two instructions. -/
theorem pushThenPop : Obligations.PushThenPop := by
  intro p q s hm
  obtain ⟨t, u, ht, hu, hregs⟩ := exec_push_pop_reg hm p q
  simp only [State.reg_setReg_spIndex] at hregs
  refine ⟨t, u, ht, hu, ?_, fun hp hq => ?_, fun hp hq => ?_, fun hp hq => ?_, fun r hr => ?_⟩
  · rintro rfl r -
    rw [hregs]
    by_cases hr : r = spIndex
    · by_cases hp : p = spIndex <;> simp [hr, hp, State.sp_eq]
    · by_cases hrp : r = p
      · subst hrp
        simp [hr]
      · simp [hr, hrp]
  · simp [State.sp_eq u, hregs, hp, hq]
  · simp [State.sp_eq u, hregs, hp, hq]
  · simp [State.sp_eq u, hregs, hp, hq]
  · obtain ⟨hsp, hrq⟩ : r ≠ spIndex ∧ r ≠ q := by simpa using hr
    simp [hregs, hsp, hrq]

/-! ### Jumps -/

/-- A branch completes: it sets the PC to the register or moves it by 2, and changes nothing else (rules R171 to R173). -/
theorem branch_frame (taken : Bool) (r : Reg) (s : State) :
    ∃ t, branch taken r s = .next t ∧
      (taken = true → t.pc = s.reg r) ∧ (taken = false → t.pc.toNat = (s.pc.toNat + 2) % 256) ∧
      SameRegsBut [] s t ∧ t.fl = s.fl ∧ SameMem s t ∧ t.out = s.out ∧ SameControl s t := by
  cases taken with
  | true => exact ⟨_, rfl, fun _ => rfl, nofun, fun _ _ => rfl, rfl, fun _ => rfl, rfl, rfl, rfl, rfl⟩
  | false => exact ⟨_, rfl, nofun, fun _ => rfl, fun _ _ => rfl, rfl, fun _ => rfl, rfl, rfl, rfl, rfl⟩

/-- Settles O37: JMP is the branch that is always taken. -/
theorem jmpSetsThePc : Obligations.JmpSetsThePc := by
  intro r s
  obtain ⟨t, ht, hpc, -, hframe⟩ := branch_frame true r s
  exact ⟨t, (execJmp_regByte r s).trans ht, hpc rfl, hframe⟩

/-- Settles O38: JEQ branches on the equal flag, JNE on its negation. -/
theorem conditionalJumpsTestTheEqualFlag : Obligations.ConditionalJumpsTestTheEqualFlag := by
  refine fun r s => ⟨?_, ?_⟩
  · obtain ⟨t, ht, hframe⟩ := branch_frame (flagE s.fl) r s
    exact ⟨t, (execJeq_regByte r s).trans ht, hframe⟩
  · obtain ⟨t, ht, hframe⟩ := branch_frame (!flagE s.fl) r s
    rw [Bool.not_eq_true', Bool.not_eq_false'] at hframe
    exact ⟨t, (execJne_regByte r s).trans ht, hframe⟩

end Sys2Proof.Machine
end

section
/-! SUPPORT and PROOF of O42 to O44. LDI, PRN and HLT. -/

namespace Sys2Proof.Machine

/-- Settles O42: one register write and the normal advance. -/
theorem ldiLoadsTheImmediate : Obligations.LdiLoadsTheImmediate := fun r v s =>
  ⟨_, execLdi_regByte r v s, s.setReg_advance_reg_self r v 2, s.setReg_advance_frame r v 2⟩

/-- Settles O43: PRN is an append and the normal advance. -/
theorem prnAppendsTheRegister : Obligations.PrnAppendsTheRegister := fun r s =>
  ⟨_, execPrn_regByte r s, rfl, rfl, fun _ _ => rfl, rfl, fun _ => rfl, rfl, rfl, rfl⟩

/-- Settles O44: HLT is a halt and the normal advance. -/
theorem hltHalts : Obligations.HltHalts := fun _ =>
  ⟨_, rfl, rfl, rfl, rfl, fun _ _ => rfl, rfl, fun _ => rfl, rfl, rfl⟩

end Sys2Proof.Machine
end

section
/-! SUPPORT and PROOF of O48, O49 and O50. What any number of steps keeps. -/

namespace Sys2Proof.Machine

/-- What every step keeps, any number of steps keeps. -/
theorem stepsTo_keeps {P : State → Prop} (hstep : ∀ u v, P u → step u = .next v → P v) {n : Nat} {s t : State}
    (hs : P s) (h : stepsTo n s t) : P t := by
  induction n generalizing s with
  | zero => exact stepsTo_zero.mp h ▸ hs
  | succ n ih =>
    obtain ⟨u, hu, ht⟩ := stepsTo_succ.mp h
    exact ih (hstep s u hs hu) ht

/-- Settles O49: no step changes the configuration. -/
theorem flagModeNeverChanges : Obligations.FlagModeNeverChanges := fun _ s _ h =>
  stepsTo_keeps (P := fun u => u.config = s.config) (fun _ _ hu hv => (step_config hv).trans hu) rfl h

/-! ### Flags once set -/

/-- The machine combines flags by OR, and flag `k` is set. -/
def StickyAndSet (k : Nat) (s : State) : Prop := s.config.flagsSticky = true ∧ s.fl.getLsbD k = true

theorem step_fl_cases {s t : State} (h : step s = .next t) :
    t.fl = s.fl ∨ ∃ x y, t.fl = combineFlags s.config.flagsSticky s.fl (compareFlags x y) := by
  obtain ⟨-, rfl⟩ | ⟨-, e, -, rfl⟩ | ⟨-, i, -, hx⟩ := step_cases h
  · exact .inl rfl
  · exact .inl rfl
  · exact exec_fl_cases hx

theorem step_stickyAndSet {k : Nat} {s t : State} (hs : StickyAndSet k s) (h : step s = .next t) :
    StickyAndSet k t := by
  obtain ⟨hmode, hset⟩ := hs
  refine ⟨step_config h ▸ hmode, ?_⟩
  obtain hfl | ⟨x, y, hfl⟩ := step_fl_cases h <;> rw [hfl]
  · exact hset
  · simp [combineFlags, hmode, hset]

/-- Settles O50: the same argument for each of the three bits. -/
theorem stickyFlagsAreNeverCleared : Obligations.StickyFlagsAreNeverCleared := by
  intro n s t hmode h
  have hkept (k : Nat) (hset : s.fl.getLsbD k = true) : t.fl.getLsbD k = true := by
    obtain ⟨-, hset'⟩ : StickyAndSet k t := stepsTo_keeps (fun _ _ => step_stickyAndSet) ⟨hmode, hset⟩ h
    exact hset'
  exact ⟨hkept 0, hkept 1, hkept 2⟩

/-! ### The output -/

/-- Only PRN appends to the output (rule R34). -/
theorem exec_out {i : Instr} {s t : State} (hprn : ∀ r, i ≠ .prn r) (h : exec i s = .next t) : t.out = s.out := by
  refine exec_next_of_wellFormed (P := fun t => t.out = s.out) h (fun _ => rfl) fun hi => ?_
  induction i, hi using wellFormed_cases with
  | prn r => exact absurd rfl (hprn _)
  | div a b =>
    by_cases hb : s.reg b = 0
    · exact ⟨_, execDiv_regByte_of_eq_zero hb a, rfl⟩
    · exact ⟨_, execDiv_regByte_of_ne_zero hb a, rfl⟩
  | jeq | jne => cases hE : flagE s.fl <;> simp [exec, hE]
  | push | call => simp [exec, State.push_eq]
  | pop => simp [exec, State.pop_eq]
  | ret => simp [exec, execRet, State.pop_eq]
  | hlt => simp [exec, execHlt]
  | ldi | add | sub | mul | cmp | or | jmp => simp [exec]

/-- An instruction appends at most one byte to the output. -/
theorem exec_out_append {i : Instr} {s t : State} (h : exec i s = .next t) :
    ∃ new : List Byte, t.out = s.out ++ new ∧ new.length ≤ 1 := by
  by_cases hprn : ∃ r, i = .prn r
  · obtain ⟨r, rfl⟩ := hprn
    obtain ⟨-, rfl⟩ | ⟨x, -, hx⟩ := withReg_next h
    · exact ⟨[], by simp⟩
    · cases hx
      exact ⟨[s.reg x], rfl, le_rfl⟩
  · exact ⟨[], by simp [exec_out (fun r hr => hprn ⟨r, hr⟩) h]⟩

theorem step_out {s t : State} (hprn : ∀ r, s.fetchDecode ≠ .ok (.prn r)) (h : step s = .next t) : t.out = s.out := by
  obtain ⟨-, rfl⟩ | ⟨-, e, -, rfl⟩ | ⟨-, i, hi, hx⟩ := step_cases h
  · rfl
  · rfl
  · exact exec_out (fun r hr => hprn r (hr ▸ hi)) hx

theorem step_out_append {s t : State} (h : step s = .next t) :
    ∃ new : List Byte, t.out = s.out ++ new ∧ new.length ≤ 1 := by
  obtain ⟨-, rfl⟩ | ⟨-, e, -, rfl⟩ | ⟨-, i, -, hx⟩ := step_cases h
  · exact ⟨[], by simp⟩
  · exact ⟨[], by simp⟩
  · exact exec_out_append hx

theorem stepsTo_out_append {n : Nat} {s t : State} (h : stepsTo n s t) :
    ∃ new : List Byte, t.out = s.out ++ new ∧ new.length ≤ n := by
  induction n generalizing s with
  | zero => exact ⟨[], by simp [stepsTo_zero.mp h]⟩
  | succ n ih =>
    obtain ⟨u, hu, ht⟩ := stepsTo_succ.mp h
    obtain ⟨first, hfirst, hone⟩ := step_out_append hu
    obtain ⟨rest, hrest, hn⟩ := ih ht
    refine ⟨first ++ rest, by rw [hrest, hfirst, List.append_assoc], ?_⟩
    rw [List.length_append]
    omega

/-- Settles O48: one step by `step_out`, many by adding up what each appends. -/
theorem outputIsAppendOnly : Obligations.OutputIsAppendOnly :=
  ⟨fun _ _ => step_out, fun _ _ _ => stepsTo_out_append⟩

end Sys2Proof.Machine
end

section
/-! SUPPORT and PROOF of O51. The two flag modes side by side: a relation between a machine that replaces the flags and one
that ORs into them, kept by every step at which no stale equal flag meets a CMP. -/

namespace Sys2Proof.Machine

/-- The state with the configuration exchanged for `c`. -/
def State.setConfig (s : State) (c : Config) : State := { s with config := c }

@[simp] theorem State.setConfig_fl (s : State) (c : Config) : (s.setConfig c).fl = s.fl := rfl
@[simp] theorem State.setConfig_reg (s : State) (c : Config) (r : Reg) : (s.setConfig c).reg r = s.reg r := rfl

theorem agreeUpToFlagMode_iff {s s' : State} :
    AgreeUpToFlagMode s s' ↔ ∃ f c, s' = (s.setConfig c).setFl f ∧ flagE f = flagE s.fl := by
  constructor
  · rintro ⟨hs', hE⟩
    exact ⟨s'.fl, s'.config, hs', hE⟩
  · rintro ⟨f, c, rfl, hE⟩
    exact ⟨rfl, hE⟩

/-- No instruction but CMP sees the configuration (decision D6). -/
theorem exec_setConfig {i : Instr} (hcmp : ∀ a b, i ≠ .cmp a b) (s : State) (c : Config) :
    exec i (s.setConfig c) = mapNext (fun t => t.setConfig c) (exec i s) := by
  refine exec_mapNext_of_wellFormed (f := fun t => t.setConfig c) rfl fun hi => ?_
  induction i, hi using wellFormed_cases with
  | cmp a b => exact absurd rfl (hcmp _ _)
  | div a b =>
    by_cases hb : s.reg b = 0
    · simp only [exec, execDiv_regByte_of_eq_zero hb, execDiv_regByte_of_eq_zero (s := s.setConfig c) hb]
      rfl
    · simp only [exec, execDiv_regByte_of_ne_zero hb, execDiv_regByte_of_ne_zero (s := s.setConfig c) hb]
      rfl
  | jeq | jne => cases hE : flagE s.fl <;> simp [exec, hE] <;> rfl
  | ret | hlt => rfl
  | ldi | prn | add | sub | mul | or | push | pop | call | jmp => simp [exec]; rfl

/-- An instruction other than CMP does the same in both modes. -/
theorem exec_agree_of_ne_cmp {i : Instr} {s s' t t' : State} (hcmp : ∀ a b, i ≠ .cmp a b)
    (hagree : AgreeUpToFlagMode s s') (h : exec i s = .next t) (h' : exec i s' = .next t') :
    AgreeUpToFlagMode t t' := by
  obtain ⟨f, c, rfl, hE⟩ := agreeUpToFlagMode_iff.mp hagree
  rw [exec_setFl (s := s.setConfig c) hcmp fun _ _ => hE, exec_setConfig hcmp, h] at h'
  cases h'
  exact agreeUpToFlagMode_iff.mpr ⟨f, c, rfl, by rw [hE, exec_fl hcmp h]⟩

/-- A CMP executed with the equal flag clear finds the same equal flag in both modes (rule R244(b)). -/
theorem exec_cmp_agree {a b : Byte} {s s' t t' : State} (hE : flagE s.fl = false) (hagree : AgreeUpToFlagMode s s')
    (h : exec (.cmp a b) s = .next t) (h' : exec (.cmp a b) s' = .next t') : AgreeUpToFlagMode t t' := by
  obtain ⟨f, c, rfl, hf⟩ := agreeUpToFlagMode_iff.mp hagree
  cases hwf : (Instr.cmp a b).wellFormed with
  | false =>
    rw [exec_of_wellFormed_eq_false hwf] at h h'
    cases h
    cases h'
    exact ⟨rfl, hf⟩
  | true =>
    obtain ⟨x, y, rfl, rfl⟩ := exists_regByte_of_all_pair hwf
    cases (execCmp_regByte x y s).symm.trans h
    cases (execCmp_regByte x y _).symm.trans h'
    exact ⟨rfl, by simp [hf, hE]⟩

theorem exec_agree {i : Instr} {s s' t t' : State} (hstale : ∀ a b, i = .cmp a b → flagE s.fl = false)
    (hagree : AgreeUpToFlagMode s s') (h : exec i s = .next t) (h' : exec i s' = .next t') : AgreeUpToFlagMode t t' := by
  by_cases hcmp : ∃ a b, i = .cmp a b
  · obtain ⟨a, b, rfl⟩ := hcmp
    exact exec_cmp_agree (hstale a b rfl) hagree h h'
  · exact exec_agree_of_ne_cmp (fun a b hi => hcmp ⟨a, b, hi⟩) hagree h h'

/-- The two machines are in the same loop state and fetch the same instruction. -/
theorem AgreeUpToFlagMode.run_eq {s s' : State} (h : AgreeUpToFlagMode s s') : s'.run = s.run := by
  obtain ⟨f, c, rfl, -⟩ := agreeUpToFlagMode_iff.mp h
  rfl

theorem AgreeUpToFlagMode.fetchDecode_eq {s s' : State} (h : AgreeUpToFlagMode s s') :
    s'.fetchDecode = s.fetchDecode := by
  obtain ⟨f, c, rfl, -⟩ := agreeUpToFlagMode_iff.mp h
  rfl

theorem AgreeUpToFlagMode.raised {s s' : State} (h : AgreeUpToFlagMode s s') (e : FaultCause) :
    AgreeUpToFlagMode { s with run := .halted, fault := some e } { s' with run := .halted, fault := some e } := by
  obtain ⟨f, c, rfl, hE⟩ := agreeUpToFlagMode_iff.mp h
  exact ⟨rfl, hE⟩

/-- The commuting square of one step. -/
theorem step_agree {s s' t t' : State}
    (hstale : ∀ a b, s.fetchDecode = .ok (.cmp a b) → flagE s.fl = false) (hagree : AgreeUpToFlagMode s s')
    (h : step s = .next t) (h' : step s' = .next t') : AgreeUpToFlagMode t t' := by
  obtain ⟨hrun, rfl⟩ | ⟨hrun, e, he, rfl⟩ | ⟨hrun, i, hi, hx⟩ := step_cases h
  · cases (step_of_halted (hagree.run_eq.trans hrun)).symm.trans h'
    exact hagree
  · cases (step_of_fetchDecode_error (hagree.run_eq.trans hrun) (hagree.fetchDecode_eq.trans he)).symm.trans h'
    exact hagree.raised _
  · have hx' : exec i s' = .next t' :=
      (step_of_fetchDecode_ok (hagree.run_eq.trans hrun) (hagree.fetchDecode_eq.trans hi)).symm.trans h'
    exact exec_agree (fun a b hcmp => hstale a b (hcmp ▸ hi)) hagree hx hx'

/-- Settles O51: induction on the number of steps, with `step_agree` for the first of them; state `k` of the run from the
second state is state `k + 1` of the whole run. -/
theorem flagModesAgreeWithoutStaleEqual : Obligations.FlagModesAgreeWithoutStaleEqual := by
  intro n
  induction n with
  | zero =>
    intro s s' t t' _ _ hagree _ h h'
    rwa [← stepsTo_zero.mp h, ← stepsTo_zero.mp h']
  | succ n ih =>
    intro s s' t t' hmode hmode' hagree hstale h h'
    obtain ⟨u, hu, ht⟩ := stepsTo_succ.mp h
    obtain ⟨u', hu', ht'⟩ := stepsTo_succ.mp h'
    have hfirst : AgreeUpToFlagMode u u' :=
      step_agree (fun a b => hstale 0 s a b (Nat.zero_lt_succ n) (stepsTo_zero.mpr rfl)) hagree hu hu'
    refine ih u u' t t' (step_config hu ▸ hmode) (step_config hu' ▸ hmode') hfirst (fun k v a b hk hv => ?_) ht ht'
    exact hstale (k + 1) v a b (Nat.succ_lt_succ hk) (stepsTo_succ.mpr ⟨u, hu, hv⟩)

end Sys2Proof.Machine
end
